-- ==== Sys2Proof/Word.lean ====
section
/-! DEFINITION. The word types: a byte, a command word of format H, a frame of format S, and the byte
fields they are cut into (00_scope.md R8, 30_encoding.md R81, R86). -/

namespace Sys2Proof

/-- An unsigned 8-bit value: an operand (00_scope.md R10), a buffer byte (R20), a chip register (R30). -/
abbrev Byte := BitVec 8

/-- The 32-bit host command word `cw[31:0]` (30_encoding.md R81). -/
abbrev CommandWord := BitVec 32

/-- The 16-bit serial frame `f[15:0]` (30_encoding.md R86). -/
abbrev Frame := BitVec 16

/-- The chain shift register of the cascade, `16 * N` bits for N = 4 (10_state.md R29). -/
abbrev ChainWord := BitVec 64

end Sys2Proof
end

