-- ==== Sys2Proof/Config.lean ====
section
/-! DEFINITION. What is fixed for the machine: the constants and parameters of 00_scope.md R6, the three
pins, and the free values. -/

namespace Sys2Proof.Config

/-- `N`, the number of cascaded chips (R6, R7; 92 D1: "N = 4 is normative for this hardware"). -/
abbrev numChips : Nat := 4

/-- The length `8 * N` of the display buffer (10_state.md R20). -/
abbrev bufLen : Nat := 32

/-- `SCAN_ALL` (R6). -/
def scanAll : Byte := 0x07#8

/-- `SHUTDOWN_NORMAL` (R6). -/
def shutdownNormal : Byte := 0x01#8

/-- `DECODE_RAW` (R6). -/
def decodeRaw : Byte := 0x00#8

/-- `TEST_OFF` (R6). -/
def testOff : Byte := 0x00#8

/-- The three control lines, named by their roles (R6: PIN_DATA, PIN_CLK, PIN_LOAD). -/
inductive Pin where
  | data
  | clk
  | load
deriving DecidableEq, Repr

/-- One value for each of the three lines. -/
structure PerPin (α : Type) where
  data : α
  clk : α
  load : α
deriving DecidableEq, Repr

/-- The OPEN parameters of R6. They are configuration, not state (10_state.md R35): the machine's state
carries them in one field that no step changes, so that a statement about every state is a statement about
every configuration. DESIGN CHOICE (log 2), safe. -/
structure Params where
  /-- `PIN_DATA`, `PIN_CLK`, `PIN_LOAD`: identifiers in the host GPIO addressing scheme (92 D3). -/
  pins : PerPin Nat
  /-- `ALLOC_OK` (92 D4). -/
  allocOk : Bool
  /-- `INTENSITY_LEVEL`, 0x00..0x0F (92 D12), so four bits (log 20). -/
  intensityLevel : BitVec 4
  /-- `EXPOSE_INTERNAL` (30_encoding.md R82, 92 D23). -/
  exposeInternal : Bool
deriving DecidableEq, Repr

/-- The parameters `State.reset` carries: the samples and defaults of spec/ where it has one (95 section 1,
R82), else a sample of the model's. DESIGN CHOICE (log 2), unsafe: no statement rests on these values. -/
def sample : Params :=
  { pins := { data := 0, clk := 1, load := 2 }, allocOk := true, intensityLevel := 0x8#4, exposeInternal := true }

/-- The working registers of the sequencer (10_state.md R26). -/
structure WorkRegs where
  /-- `sr`, the byte being shifted out. -/
  sr : Byte
  /-- `bitcnt`, the bit index 7 down to 0. -/
  bitcnt : BitVec 3
  /-- `bytesel`: 0 the register byte, 1 the data byte of a pair. -/
  bytesel : BitVec 1
  /-- `chipidx`, the chip position inside a latch transaction. -/
  chipidx : BitVec 2
  /-- `colidx`, the column inside CLEAR. -/
  colidx : BitVec 3
  /-- `cfgidx`, which of the five configuration writes inside INIT. -/
  cfgidx : BitVec 3
deriving DecidableEq, Repr, Inhabited

/-- What the working registers hold at reset. The spec says "unspecified" (R34). DESIGN CHOICE (log 5), unsafe. -/
def resetWork : WorkRegs :=
  { sr := 0xA5#8, bitcnt := 5#3, bytesel := 1#1, chipidx := 2#2, colidx := 5#3, cfgidx := 5#3 }

/-- FREE VALUE (log 5): what the working registers hold after a performed command, the n-th draw. "None of
[them] survives an operation" (R26); "unspecified (dead between operations)" (R34). -/
opaque freeWork : Nat → WorkRegs

/-- FREE VALUE (log 6): the bit a chip samples from a data line that was never driven, by the number of events
so far. No operation ever makes a chip sample one (R114, R241). -/
opaque floatingBit : Nat → Bool

end Sys2Proof.Config
end

