-- ==== Sys2Proof/Syntax.lean ====
section
/-! DEFINITION. The 21 operations of 00_scope.md R3, one constructor for each row of spec/opcode_table.json. -/

namespace Sys2Proof

/-- The operation set. Level H (format H, R82): the three host commands and the four micro-operations of the
block, with their byte operands. Level S (format S, 30_encoding.md R87): the fourteen frames, each with its
data byte and the number `chip` of the chain chip in whose input stage the frame stands, which executes it
(44_chain_receiver.md R173: `exec_frame(k, addr, data)`). The number is no bit of the frame (log 9). -/
inductive Instr where
  /-- INIT (43_init_sequence.md R160). -/
  | init
  /-- WRITE x, y, value (42_buffer_mapper.md R143). -/
  | write (x y value : Byte)
  /-- CLEAR (R146). -/
  | clear
  /-- BUFPIX x, y, value (R140). -/
  | bufpix (x y value : Byte)
  /-- SYNCCOL col (41_register_protocol.md R124). -/
  | synccol (col : Byte)
  /-- SETREG reg, data (R120). -/
  | setreg (reg data : Byte)
  /-- SENDBYTE value (40_serial_link.md R110). -/
  | sendbyte (value : Byte)
  /-- NOOP data (R174). -/
  | noop (chip : Nat) (data : Byte)
  /-- DIGIT1 data (R175). -/
  | digit1 (chip : Nat) (data : Byte)
  /-- DIGIT2 data (R176). -/
  | digit2 (chip : Nat) (data : Byte)
  /-- DIGIT3 data (R177). -/
  | digit3 (chip : Nat) (data : Byte)
  /-- DIGIT4 data (R178). -/
  | digit4 (chip : Nat) (data : Byte)
  /-- DIGIT5 data (R179). -/
  | digit5 (chip : Nat) (data : Byte)
  /-- DIGIT6 data (R180). -/
  | digit6 (chip : Nat) (data : Byte)
  /-- DIGIT7 data (R181). -/
  | digit7 (chip : Nat) (data : Byte)
  /-- DIGIT8 data (R182). -/
  | digit8 (chip : Nat) (data : Byte)
  /-- DECODE data (R183). -/
  | decode (chip : Nat) (data : Byte)
  /-- INTENSITY data (R184). -/
  | intensity (chip : Nat) (data : Byte)
  /-- SCANLIMIT data (R185). -/
  | scanlimit (chip : Nat) (data : Byte)
  /-- SHUTDOWN data (R186). -/
  | shutdown (chip : Nat) (data : Byte)
  /-- DISPTEST data (R187). -/
  | disptest (chip : Nat) (data : Byte)
deriving DecidableEq, Repr

/-- A word as it stands where an operation is taken from: a command word on the command port (R81), or a
frame in the input stage of a chain chip (R86, R172). -/
inductive CodeWord where
  | command (cw : CommandWord)
  | frame (chip : Nat) (f : Frame)
deriving DecidableEq, Repr

end Sys2Proof
end

