-- ==== Sys2Proof/WellFormed.lean ====
section
/-! DEFINITION. Which instructions are well formed. Every byte operand of every operation is admitted: the
range checks of x, y and col are the operations' own (30_encoding.md R83). The one check is that a frame's
chip is one of the N chips (44_chain_receiver.md R170). -/

namespace Sys2Proof

/-- The chip whose stage a frame instruction stands in; none for a command of the block. -/
def Instr.chip? : Instr → Option Nat
  | .init => none
  | .write _ _ _ => none
  | .clear => none
  | .bufpix _ _ _ => none
  | .synccol _ => none
  | .setreg _ _ => none
  | .sendbyte _ => none
  | .noop k _ => some k
  | .digit1 k _ => some k
  | .digit2 k _ => some k
  | .digit3 k _ => some k
  | .digit4 k _ => some k
  | .digit5 k _ => some k
  | .digit6 k _ => some k
  | .digit7 k _ => some k
  | .digit8 k _ => some k
  | .decode k _ => some k
  | .intensity k _ => some k
  | .scanlimit k _ => some k
  | .shutdown k _ => some k
  | .disptest k _ => some k

/-- An instruction is well formed when the chip it names, if any, exists. -/
def Instr.wellFormed (i : Instr) : Bool :=
  match i.chip? with
  | none => true
  | some k => decide (k < Config.numChips)

/-- Level H (R3): the operation is a command of the block, not a frame. -/
def Instr.isCommand (i : Instr) : Bool := i.chip?.isNone

/-- The four internal micro-operations (R82: opcodes 0x10 to 0x13). -/
def Instr.isInternal : Instr → Bool
  | .bufpix _ _ _ => true
  | .synccol _ => true
  | .setreg _ _ => true
  | .sendbyte _ => true
  | .init => false
  | .write _ _ _ => false
  | .clear => false
  | .noop _ _ => false
  | .digit1 _ _ => false
  | .digit2 _ _ => false
  | .digit3 _ _ => false
  | .digit4 _ _ => false
  | .digit5 _ _ => false
  | .digit6 _ _ => false
  | .digit7 _ _ => false
  | .digit8 _ _ => false
  | .decode _ _ => false
  | .intensity _ _ => false
  | .scanlimit _ _ => false
  | .shutdown _ _ => false
  | .disptest _ _ => false

end Sys2Proof
end

