-- ==== Sys2Proof/Decode.lean ====
section
/-! DEFINITION. Decoding of both formats (30_encoding.md R80 to R93), total and rejecting by name, then the
encoder, written from the same tables, and the numbering the host reads the table by. -/

namespace Sys2Proof

/-- Why a word is no instruction. -/
inductive DecodeError where
  /-- `op` is none of the seven of R82 (R85). -/
  | unknownOpcode (op : Byte)
  /-- A listed `op` with a non-zero unused field (R85). -/
  | unusedFieldNotZero (op : Byte)
  /-- An internal `op` while `EXPOSE_INTERNAL` is false (R82, R85). -/
  | internalNotExposed (op : Byte)
  /-- A frame whose address byte is in no row of R87 (R90, R188). -/
  | reservedAddress (addr : Byte)
deriving DecidableEq, Repr

/-- `cw[31:24]`. -/
def CommandWord.op (cw : CommandWord) : Byte := cw.extractLsb' 24 8
/-- `cw[23:16]`. -/
def CommandWord.a (cw : CommandWord) : Byte := cw.extractLsb' 16 8
/-- `cw[15:8]`. -/
def CommandWord.b (cw : CommandWord) : Byte := cw.extractLsb' 8 8
/-- `cw[7:0]`. -/
def CommandWord.c (cw : CommandWord) : Byte := cw.extractLsb' 0 8

/-- `f[15:8]`, the register byte (R86). -/
def Frame.addr (f : Frame) : Byte := f.extractLsb' 8 8
/-- `f[7:0]`, the data byte (R86). -/
def Frame.data (f : Frame) : Byte := f.extractLsb' 0 8

/-- An operation whose fields `unused` must all be zero (R82). -/
def whenZero (op : Byte) (unused : List Byte) (i : Instr) : Except DecodeError Instr :=
  if unused.all (fun u => u == 0#8) then .ok i else .error (.unusedFieldNotZero op)

/-- An internal operation: reserved unless exposed (R82, R85). -/
def whenExposed (expose : Bool) (op : Byte) (r : Except DecodeError Instr) : Except DecodeError Instr :=
  if expose then r else .error (.internalNotExposed op)

/-- Decoding format H (R84) by the opcode map R82, operands by R83. It depends on no state but
`EXPOSE_INTERNAL`; the phase rule is the command's own (43_init_sequence.md R164). -/
def decodeCommand (expose : Bool) (cw : CommandWord) : Except DecodeError Instr :=
  let op := CommandWord.op cw
  let a := CommandWord.a cw
  let b := CommandWord.b cw
  let c := CommandWord.c cw
  if op = 0x01#8 then whenZero op [a, b, c] .init
  else if op = 0x02#8 then .ok (.write a b c)
  else if op = 0x03#8 then whenZero op [a, b, c] .clear
  else if op = 0x10#8 then whenExposed expose op (.ok (.bufpix a b c))
  else if op = 0x11#8 then whenExposed expose op (whenZero op [b, c] (.synccol a))
  else if op = 0x12#8 then whenExposed expose op (whenZero op [c] (.setreg a b))
  else if op = 0x13#8 then whenExposed expose op (whenZero op [b, c] (.sendbyte a))
  else .error (.unknownOpcode op)

/-- Decoding format S on chain chip k: the whole address byte is compared with the map R87 (R91, R173). -/
def decodeFrame (k : Nat) (f : Frame) : Except DecodeError Instr :=
  let addr := Frame.addr f
  let d := Frame.data f
  if addr = 0x00#8 then .ok (.noop k d)
  else if addr = 0x01#8 then .ok (.digit1 k d)
  else if addr = 0x02#8 then .ok (.digit2 k d)
  else if addr = 0x03#8 then .ok (.digit3 k d)
  else if addr = 0x04#8 then .ok (.digit4 k d)
  else if addr = 0x05#8 then .ok (.digit5 k d)
  else if addr = 0x06#8 then .ok (.digit6 k d)
  else if addr = 0x07#8 then .ok (.digit7 k d)
  else if addr = 0x08#8 then .ok (.digit8 k d)
  else if addr = 0x09#8 then .ok (.decode k d)
  else if addr = 0x0A#8 then .ok (.intensity k d)
  else if addr = 0x0B#8 then .ok (.scanlimit k d)
  else if addr = 0x0C#8 then .ok (.shutdown k d)
  else if addr = 0x0F#8 then .ok (.disptest k d)
  else .error (.reservedAddress addr)

/-- Decoding a word of either format. -/
def decode (expose : Bool) : CodeWord → Except DecodeError Instr
  | .command cw => decodeCommand expose cw
  | .frame k f => decodeFrame k f

/-- The command word `op ‖ a ‖ b ‖ c` (R81). -/
def commandWord (op a b c : Byte) : CommandWord := op ++ a ++ b ++ c

/-- The frame `addr ‖ data` (R86). -/
def frameWord (addr d : Byte) : Frame := addr ++ d

/-- The word of an instruction, from the opcode maps R82 and R87. -/
def encode : Instr → CodeWord
  | .init => .command (commandWord 0x01#8 0x00#8 0x00#8 0x00#8)
  | .write x y v => .command (commandWord 0x02#8 x y v)
  | .clear => .command (commandWord 0x03#8 0x00#8 0x00#8 0x00#8)
  | .bufpix x y v => .command (commandWord 0x10#8 x y v)
  | .synccol col => .command (commandWord 0x11#8 col 0x00#8 0x00#8)
  | .setreg reg d => .command (commandWord 0x12#8 reg d 0x00#8)
  | .sendbyte v => .command (commandWord 0x13#8 v 0x00#8 0x00#8)
  | .noop k d => .frame k (frameWord 0x00#8 d)
  | .digit1 k d => .frame k (frameWord 0x01#8 d)
  | .digit2 k d => .frame k (frameWord 0x02#8 d)
  | .digit3 k d => .frame k (frameWord 0x03#8 d)
  | .digit4 k d => .frame k (frameWord 0x04#8 d)
  | .digit5 k d => .frame k (frameWord 0x05#8 d)
  | .digit6 k d => .frame k (frameWord 0x06#8 d)
  | .digit7 k d => .frame k (frameWord 0x07#8 d)
  | .digit8 k d => .frame k (frameWord 0x08#8 d)
  | .decode k d => .frame k (frameWord 0x09#8 d)
  | .intensity k d => .frame k (frameWord 0x0A#8 d)
  | .scanlimit k d => .frame k (frameWord 0x0B#8 d)
  | .shutdown k d => .frame k (frameWord 0x0C#8 d)
  | .disptest k d => .frame k (frameWord 0x0F#8 d)

/-- One row of an opcode map as the spec prints it: `match`, `mask`, and whether it is internal (R82). -/
structure CommandRow where
  pattern : CommandWord
  mask : CommandWord
  internal : Bool
deriving DecidableEq, Repr

/-- The map of format H, R82, row by row. -/
def commandRows : List CommandRow :=
  [ { pattern := 0x01000000#32, mask := 0xFFFFFFFF#32, internal := false },
    { pattern := 0x02000000#32, mask := 0xFF000000#32, internal := false },
    { pattern := 0x03000000#32, mask := 0xFFFFFFFF#32, internal := false },
    { pattern := 0x10000000#32, mask := 0xFF000000#32, internal := true },
    { pattern := 0x11000000#32, mask := 0xFF00FFFF#32, internal := true },
    { pattern := 0x12000000#32, mask := 0xFF0000FF#32, internal := true },
    { pattern := 0x13000000#32, mask := 0xFF00FFFF#32, internal := true } ]

/-- `cw & mask = match` for some row that is not hidden (R84, R85). -/
def matchesCommandRow (expose : Bool) (cw : CommandWord) : Bool :=
  commandRows.any (fun r => (cw &&& r.mask == r.pattern) && (expose || !r.internal))

/-- The patterns of the map of format S, R87, each under the mask 0xFF00. -/
def framePatterns : List Frame :=
  [ 0x0000#16, 0x0100#16, 0x0200#16, 0x0300#16, 0x0400#16, 0x0500#16, 0x0600#16, 0x0700#16, 0x0800#16,
    0x0900#16, 0x0A00#16, 0x0B00#16, 0x0C00#16, 0x0F00#16 ]

/-- `f & 0xFF00 = match` for some row (R87). -/
def matchesFrameRow (f : Frame) : Bool :=
  framePatterns.any (fun p => f &&& 0xFF00#16 == p)

/-- The host's numbering: a row of 32 bits is a command word, a row of 16 bits a frame, taken as standing in
the stage of chain chip 0; any other length is no word of this hardware (R80). `EXPOSE_INTERNAL` has its
default, true (R82). -/
def decodeTableWord (nbits w : Nat) : Option Instr :=
  if 2 ^ nbits ≤ w then none
  else if nbits = 32 then (decode true (.command (BitVec.ofNat 32 w))).toOption
  else if nbits = 16 then (decode true (.frame 0 (BitVec.ofNat 16 w))).toOption
  else none

end Sys2Proof
end

