-- ==== Sys2Proof/Machine/State.lean ====
section
/-! DEFINITION. The machine's state as plain data: everything 10_state.md gives the block and the cascade, the
observation (the output trace), the configuration, and two fields of the model's own (`host`, `draws`). Then
the reasons a step stops, and the state right after reset. -/

namespace Sys2Proof.Machine

open Sys2Proof.Config (Pin PerPin Params WorkRegs)

/-- The phase (R23). -/
inductive Phase where
  | preInit
  | ready
deriving DecidableEq, Repr

/-- The level of a line latch: 0, 1, or `U`, undriven since reset (R24). -/
inductive Level where
  | low
  | high
  | undriven
deriving DecidableEq, Repr

/-- An event of the output trace (00_scope.md R12): `CfgOut(pin)` or `SetLine(pin, level)`, the level true for
high. The pin is named by its role; its identifier is `Params.pins` at that role (log 3). -/
inductive Event where
  | cfgOut (pin : Pin)
  | setLine (pin : Pin) (level : Bool)
deriving DecidableEq, Repr

/-- The thirteen storing addresses of the chip register space (R30, R31). -/
inductive RegAddr where
  | digit1
  | digit2
  | digit3
  | digit4
  | digit5
  | digit6
  | digit7
  | digit8
  | decode
  | intensity
  | scanLimit
  | shutdown
  | dispTest
deriving DecidableEq, Repr

/-- The register file `reg[k]` of one chain chip (R30): the whole byte as sent is kept (92 D24). -/
structure ChipRegs where
  digit1 : Byte
  digit2 : Byte
  digit3 : Byte
  digit4 : Byte
  digit5 : Byte
  digit6 : Byte
  digit7 : Byte
  digit8 : Byte
  decode : Byte
  intensity : Byte
  scanLimit : Byte
  shutdown : Byte
  dispTest : Byte
deriving DecidableEq, Repr

/-- The display buffer's contents: cells in rising order of address, none equal to what an unlisted byte
reads as (log 16). -/
abbrev Memory := List Host.Cell

/-- What the outside offers the machine next (log 8, log 9). -/
inductive Input where
  /-- The host presents a command word on the command port (70_reset_and_hazards.md R238). -/
  | command (cw : CommandWord)
  /-- The block is reset, between commands (R230, 92 D25; log 24). -/
  | reset
  /-- Chain chip k alone executes the frame in its input stage: one chip's share of a latch
  (44_chain_receiver.md R173), the model's own way to run one frame as one step (log 9). -/
  | chipLatch (k : Nat)
deriving DecidableEq, Repr

/-- Why the machine stops with a fault. The block itself raises none (60_exceptions.md R200). -/
inductive Fault where
  /-- Raised by the buffer accesses of Machine/Ops.lean for an index outside `[0, 8*N)` or while there is no
  buffer (R20); every operation checks before it accesses, so no instruction reaches it. Safe (log 17). -/
  | noSuchBufferByte (index : Nat)
  /-- Raised by a frame instruction that names a chip the cascade does not have (R170, R214): only an
  ill-formed instruction does. Safe (log 10). -/
  | noSuchChip (k : Nat)
deriving DecidableEq, Repr

/-- Why the model gives an input no meaning. -/
inductive Refusal where
  /-- Raised by exec's arms only, for an instruction without a meaning yet. Safe. -/
  | notModelled (mnemonic : String)
  /-- Raised by step for a command word in no row of the map (R85, U1). Safe (log 12). -/
  | reservedCommand (why : DecodeError)
  /-- Raised by a latch that finds an address byte outside the map in chip k's stage (R188, U3). Safe (log 13). -/
  | reservedFrame (k : Nat) (addr : Byte)
  /-- Raised by every command but INIT in phase PreInit (43_init_sequence.md R164, U2). Safe (log 11). -/
  | beforeInit
  /-- Raised by INIT in phase Ready (R164, U2). Safe (log 11). -/
  | initTwice
  /-- Raised by every command when two pin identifiers are equal (92 D3, U13). Safe (log 3). -/
  | equalPins
deriving DecidableEq, Repr

/-- The machine's state. -/
structure State where
  /-- The parameters of R6; no step changes them (log 2). -/
  config : Params
  /-- R23. -/
  phase : Phase
  /-- `buf_ok` (R22), the block's only flag. -/
  bufOk : Bool
  /-- `buf` (R20, R21). -/
  buf : Memory
  /-- `is_output` (R25). -/
  isOutput : PerPin Bool
  /-- `line` (R24). -/
  lines : PerPin Level
  /-- R27. -/
  busy : Bool
  /-- R27. -/
  seq : Nat
  /-- The working registers (R26). -/
  work : WorkRegs
  /-- The output trace (R12), newest event first (log 21). -/
  log : List Event
  /-- `S` (R29). -/
  chain : ChainWord
  /-- `reg[k]` for the N chain chips (R30). -/
  regs : Vector ChipRegs 4
  /-- The model's own: how many free values have been drawn (log 5). -/
  draws : Nat
  /-- The model's own: what the outside will offer, first the next (log 8). -/
  host : List Input
deriving DecidableEq, Repr

/-- The output trace in order (R12). -/
def State.trace (s : State) : List Event := s.log.reverse

/-- A power-on register file of the model's own choosing: the spec says any value and never zero (R34, R192).
DESIGN CHOICE (log 4), unsafe. -/
def resetRegs : ChipRegs :=
  { digit1 := 0xA5#8, digit2 := 0xA5#8, digit3 := 0xA5#8, digit4 := 0xA5#8, digit5 := 0xA5#8, digit6 := 0xA5#8,
    digit7 := 0xA5#8, digit8 := 0xA5#8, decode := 0xA5#8, intensity := 0xA5#8, scanLimit := 0xA5#8,
    shutdown := 0xA5#8, dispTest := 0xA5#8 }

/-- The block after reset (R34, R230) with the cascade, the working registers and the parameters given: these
the spec leaves to power-on and to the platform. -/
def State.powerOn (config : Params) (work : WorkRegs) (chain : ChainWord) (regs : Vector ChipRegs 4) : State :=
  { config := config
    phase := .preInit
    bufOk := false
    buf := []
    isOutput := { data := false, clk := false, load := false }
    lines := { data := .undriven, clk := .undriven, load := .undriven }
    busy := false
    seq := 0
    work := work
    log := []
    chain := chain
    regs := regs
    draws := 0
    host := [] }

/-- The machine right after reset. The block's part is the spec's (R34); the sample parameters are log 2, the
working registers log 5, and the cascade's power-on contents log 4, whose chain word is the sample of
95_test_vectors.md section 1. -/
def State.reset : State :=
  .powerOn Config.sample Config.resetWork 0xDEADBEEFCAFEF00D#64 (Vector.replicate 4 resetRegs)

end Sys2Proof.Machine
end

