-- ==== Sys2Proof/Machine/Operands.lean ====
section
/-! DEFINITION. The operand computations: the address mapper (20_memory.md R52 to R54), the pixel value
(00_scope.md R10), the digit address (30_encoding.md R89), and the chain's positions (R53, R58). -/

namespace Sys2Proof.Machine

/-- `index(x, y) = x + 8 * floor(y / 8)` (R52). -/
def index (x y : Byte) : Nat := x.toNat + 8 * (y.toNat / 8)

/-- `bitpos(y) = 7 - (y mod 8)` (R52). -/
def bitpos (y : Byte) : Nat := 7 - y.toNat % 8

/-- `mask(y) = 1 << bitpos(y)` (R52). -/
def mask (y : Byte) : Byte := 1#8 <<< bitpos y

/-- `module(y) = floor(y / 8)` (R52). -/
def moduleOf (y : Byte) : Nat := y.toNat / 8

/-- The byte with one pixel set (`value != 0`, R10) or cleared (R140). -/
def pixelByte (old m value : Byte) : Byte := if value ≠ 0#8 then old ||| m else old &&& ~~~m

/-- The digit address `8 - col` (R32, R89). -/
def digitAddr (col : Byte) : Byte := 8#8 - col

/-- The buffer index SYNCCOL reads at a chip position (R53): `col + 8 * chipIndex`. -/
def syncIndex (col : Byte) (i : Nat) : Nat := col.toNat + 8 * i

/-- Module m is displayed by chain chip `N - 1 - m` (R58). -/
def chipOfModule (m : Nat) : Nat := Config.numChips - 1 - m

/-- The chip positions of a latch transaction, in the order sent (R58): 0..N-1. -/
def positions : List Nat := [0, 1, 2, 3]

/-- The columns 0..7 in the order CLEAR sends them (R146, 92 D21). -/
def columns : List Byte := [0#8, 1#8, 2#8, 3#8, 4#8, 5#8, 6#8, 7#8]

end Sys2Proof.Machine
end

