-- ==== Sys2Proof/Machine/Ops.lean ====
section
/-! DEFINITION. The named operations over the buffer, the lines, the trace, the chip registers and the
sequencer, shared by every meaning. In place of taking and returning from an exception, which this hardware
does not have (60_exceptions.md R200, R209, R210), stands `ignore`, the silent no-op. -/

namespace Sys2Proof.Machine

open Sys2Proof.Config (Pin PerPin Params WorkRegs)

/-- What a step or an operation answers. -/
abbrev Result := Host.Outcome State Fault Refusal

/-- Continue with the next state; a fault or a refusal ends the operation. -/
def andThen (r : Result) (f : State → Result) : Result :=
  match r with
  | .next s => f s
  | .fault e => .fault e
  | .refused e => .refused e

/-- `ignore` (00_scope.md R9, 60_exceptions.md R200): the operation ends at once with no state change and no
event. -/
def ignore (s : State) : Result := .next s

/-! ### One value per line -/

/-- The value at a pin. -/
def pinGet {α : Type} (v : PerPin α) : Pin → α
  | .data => v.data
  | .clk => v.clk
  | .load => v.load

/-- The values with the one at a pin replaced. -/
def pinSet {α : Type} (v : PerPin α) (p : Pin) (a : α) : PerPin α :=
  match p with
  | .data => { v with data := a }
  | .clk => { v with clk := a }
  | .load => { v with load := a }

/-- The three identifiers are pairwise distinct (R6, 92 D3). -/
def pinsDistinct (c : Params) : Bool :=
  c.pins.data != c.pins.clk && c.pins.data != c.pins.load && c.pins.clk != c.pins.load

/-- `INTENSITY_LEVEL` as the data byte INIT sends (R6). -/
def intensityByte (c : Params) : Byte := c.intensityLevel.setWidth 8

/-! ### The display buffer -/

/-- What an unlisted byte of the buffer reads as: INIT zeroes the buffer it allocates (R160), so 0x00 (log 16). -/
def Memory.unlisted : Byte := 0x00#8

/-- The byte at an address. -/
def Memory.read : Memory → Nat → Byte
  | [], _ => Memory.unlisted
  | (a, b) :: m, i => if a = i then b else Memory.read m i

/-- A cell put before the rest, unless it says what an unlisted byte reads as anyway. -/
def Memory.cell (i : Nat) (b : Byte) (m : Memory) : Memory :=
  if b = Memory.unlisted then m else (i, b) :: m

/-- The buffer with one byte replaced, in canonical form if it was. -/
def Memory.write : Memory → Nat → Byte → Memory
  | [], i, b => Memory.cell i b []
  | (a, c) :: m, i, b =>
    if i < a then Memory.cell i b ((a, c) :: m)
    else if i = a then Memory.cell i b m
    else (a, c) :: Memory.write m i b

/-- The canonical form from an address on: rising addresses below `8 * N`, no cell an unlisted byte would read as. -/
def Memory.wfFrom : Nat → Memory → Bool
  | _, [] => true
  | lo, (a, b) :: m => decide (lo ≤ a) && decide (a < Config.bufLen) && (b != Memory.unlisted) && Memory.wfFrom (a + 1) m

/-- The canonical form of the buffer. -/
def Memory.wf (m : Memory) : Bool := Memory.wfFrom 0 m

/-- There is a buffer byte with this index (R20: the buffer exists when `buf_ok = 1`; `0 <= i < 8*N`). -/
def hasByte (i : Nat) (s : State) : Bool := s.bufOk && decide (i < Config.bufLen)

/-- `MemRead(i, 1)` (R9); none for a byte that does not exist. -/
def memRead (i : Nat) (s : State) : Option Byte :=
  if hasByte i s then some (s.buf.read i) else none

/-- `MemWrite(i, 1, v)` (R9); a fault for a byte that does not exist (log 17). -/
def memWrite (i : Nat) (v : Byte) (s : State) : Result :=
  if hasByte i s then .next { s with buf := s.buf.write i v } else .fault (.noSuchBufferByte i)

/-- `MemWrite(i, 1, 0x00)` for each index of a list, in order. -/
def zeroBytes : List Nat → State → Result
  | [], s => .next s
  | i :: is, s => andThen (memWrite i 0x00#8 s) (zeroBytes is)

/-- `for i = 0 to 8*N - 1: MemWrite(i, 1, 0x00)` (R146, R160). -/
def zeroFill (s : State) : Result := zeroBytes (List.range Config.bufLen) s

/-! ### Chip registers -/

/-- The address byte of a storing register (R31). -/
def RegAddr.code : RegAddr → Byte
  | .digit1 => 0x01#8
  | .digit2 => 0x02#8
  | .digit3 => 0x03#8
  | .digit4 => 0x04#8
  | .digit5 => 0x05#8
  | .digit6 => 0x06#8
  | .digit7 => 0x07#8
  | .digit8 => 0x08#8
  | .decode => 0x09#8
  | .intensity => 0x0A#8
  | .scanLimit => 0x0B#8
  | .shutdown => 0x0C#8
  | .dispTest => 0x0F#8

/-- `reg[k][a]` of a register file. -/
def ChipRegs.read (r : ChipRegs) : RegAddr → Byte
  | .digit1 => r.digit1
  | .digit2 => r.digit2
  | .digit3 => r.digit3
  | .digit4 => r.digit4
  | .digit5 => r.digit5
  | .digit6 => r.digit6
  | .digit7 => r.digit7
  | .digit8 => r.digit8
  | .decode => r.decode
  | .intensity => r.intensity
  | .scanLimit => r.scanLimit
  | .shutdown => r.shutdown
  | .dispTest => r.dispTest

/-- `reg[k][a] <- v` on a register file. -/
def ChipRegs.write (r : ChipRegs) (a : RegAddr) (v : Byte) : ChipRegs :=
  match a with
  | .digit1 => { r with digit1 := v }
  | .digit2 => { r with digit2 := v }
  | .digit3 => { r with digit3 := v }
  | .digit4 => { r with digit4 := v }
  | .digit5 => { r with digit5 := v }
  | .digit6 => { r with digit6 := v }
  | .digit7 => { r with digit7 := v }
  | .digit8 => { r with digit8 := v }
  | .decode => { r with decode := v }
  | .intensity => { r with intensity := v }
  | .scanLimit => { r with scanLimit := v }
  | .shutdown => { r with shutdown := v }
  | .dispTest => { r with dispTest := v }

/-- `reg[k][a] <- v` on the machine (R175 to R187). A chip the cascade does not have is a fault (log 10). -/
def storeReg (k : Nat) (a : RegAddr) (v : Byte) (s : State) : Result :=
  if h : k < 4 then .next { s with regs := s.regs.set k (s.regs[k].write a v) } else .fault (.noSuchChip k)

/-! ### Lines and trace -/

/-- The level a `SetLine` gives (R11). -/
def levelOf (hi : Bool) : Level := if hi then .high else .low

/-- Append an event to the output trace and advance the sequencer (R9 `emit`, R27 `seq <- seq + 1`). -/
def record (e : Event) (s : State) : State := { s with log := e :: s.log, seq := s.seq + 1 }

/-- `CfgOut(pin)` (R25): the line becomes an output, its level stays (92 D18). -/
def configureOutput (p : Pin) (s : State) : State :=
  let s := record (.cfgOut p) s
  { s with isOutput := pinSet s.isOutput p true }

/-! ### The sequencer -/

/-- Accepting a command: `busy <- 1` (R27). -/
def accept (s : State) : State := { s with busy := true }

/-- After the last event: `busy <- 0, seq <- 0` (R27). The working registers do not survive (R26): they hold the
next free draw (log 5). -/
def finish (s : State) : State :=
  { s with busy := false, seq := 0, work := Config.freeWork s.draws, draws := s.draws + 1 }

/-- An operation performed as a command from acceptance to its last event (R27). -/
def perform (op : State → Result) (s : State) : Result :=
  andThen (op (accept s)) (fun t => .next (finish t))

/-- Why a command in the wrong phase is refused (43_init_sequence.md R164). -/
def wrongPhase : Phase → Refusal
  | .preInit => .beforeInit
  | .ready => .initTwice

/-- A command offered by the host: not accepted, with no effect, while another runs (R238; log 15); refused when
the pins are not distinct (U13) or in the wrong phase (R164); a silent no-op when a condition of R201 to R203
holds; else performed. -/
def command (legal : Phase) (ignored : State → Bool) (op : State → Result) (s : State) : Result :=
  if s.busy then .next s
  else if !pinsDistinct s.config then .refused .equalPins
  else if s.phase ≠ legal then .refused (wrongPhase s.phase)
  else if ignored s then ignore s
  else perform op s

end Sys2Proof.Machine
end

