-- ==== Sys2Proof/Machine/Flags.lean ====
section
/-! DEFINITION. The block's one flag, `buf_ok` (10_state.md R22), and the three conditions under which an
operation is silently ignored (60_exceptions.md R201 to R204). There are no condition codes. -/

namespace Sys2Proof.Machine

/-- Condition (a), out-of-range coordinate (R201): on the full unsigned operands (R83). -/
def coordOutOfRange (x y : Byte) : Bool := decide (8 ≤ x.toNat) || decide (8 * Config.numChips ≤ y.toNat)

/-- Condition (b), unallocated buffer (R202). -/
def noBuffer (s : State) : Bool := !s.bufOk

/-- Condition (c), out-of-range column in sync (R203). -/
def colOutOfRange (col : Byte) : Bool := decide (8 ≤ col.toNat)

/-- When BUFPIX and WRITE are ignored (R140, R144). -/
def pixelIgnored (x y : Byte) (s : State) : Bool := noBuffer s || coordOutOfRange x y

/-- When SYNCCOL is ignored (R124, R125). -/
def syncIgnored (col : Byte) (s : State) : Bool := noBuffer s || colOutOfRange col

/-- When CLEAR is ignored (R146). -/
def clearIgnored (s : State) : Bool := noBuffer s

/-- SETREG, SENDBYTE and INIT are never ignored (R123, R110, R202, R204). -/
def neverIgnored (_ : State) : Bool := false

/-- `buf_ok <- (1 if ALLOC_OK else 0)` (R160): the only write of the flag in a command. The new buffer has no
listed byte until the zero-fill that follows (log 16). -/
def allocate (s : State) : State := { s with bufOk := s.config.allocOk, buf := [] }

end Sys2Proof.Machine
end

