-- ==== Sys2Proof/Machine/Frames.lean ====
section
/-! DEFINITION. The fourteen frame instructions of format S (44_chain_receiver.md R174 to R187), each on the
chain chip k that holds the frame, and the frame decode of a chip (R173). A chip in shutdown or display test
stores frames as in normal operation (R186, R216). -/

namespace Sys2Proof.Machine

/-- NOOP data (R174): no register of the chip changes, `data` is discarded. -/
def execNoop (k : Nat) (_data : Byte) (s : State) : Result :=
  if k < 4 then .next s else .fault (.noSuchChip k)

/-- DIGIT1 data (R175): `reg[k][0x01] <- data`, column 7. -/
def execDigit1 (k : Nat) (data : Byte) (s : State) : Result := storeReg k .digit1 data s

/-- DIGIT2 data (R176): `reg[k][0x02] <- data`, column 6. -/
def execDigit2 (k : Nat) (data : Byte) (s : State) : Result := storeReg k .digit2 data s

/-- DIGIT3 data (R177): `reg[k][0x03] <- data`, column 5. -/
def execDigit3 (k : Nat) (data : Byte) (s : State) : Result := storeReg k .digit3 data s

/-- DIGIT4 data (R178): `reg[k][0x04] <- data`, column 4. -/
def execDigit4 (k : Nat) (data : Byte) (s : State) : Result := storeReg k .digit4 data s

/-- DIGIT5 data (R179): `reg[k][0x05] <- data`, column 3. -/
def execDigit5 (k : Nat) (data : Byte) (s : State) : Result := storeReg k .digit5 data s

/-- DIGIT6 data (R180): `reg[k][0x06] <- data`, column 2. -/
def execDigit6 (k : Nat) (data : Byte) (s : State) : Result := storeReg k .digit6 data s

/-- DIGIT7 data (R181): `reg[k][0x07] <- data`, column 1. -/
def execDigit7 (k : Nat) (data : Byte) (s : State) : Result := storeReg k .digit7 data s

/-- DIGIT8 data (R182): `reg[k][0x08] <- data`, column 0. -/
def execDigit8 (k : Nat) (data : Byte) (s : State) : Result := storeReg k .digit8 data s

/-- DECODE data (R183): `reg[k][0x09] <- data`, decode-mode. -/
def execDecode (k : Nat) (data : Byte) (s : State) : Result := storeReg k .decode data s

/-- INTENSITY data (R184): `reg[k][0x0A] <- data`, intensity. -/
def execIntensity (k : Nat) (data : Byte) (s : State) : Result := storeReg k .intensity data s

/-- SCANLIMIT data (R185): `reg[k][0x0B] <- data`, scan-limit. -/
def execScanlimit (k : Nat) (data : Byte) (s : State) : Result := storeReg k .scanLimit data s

/-- SHUTDOWN data (R186): `reg[k][0x0C] <- data`, shutdown/power. -/
def execShutdown (k : Nat) (data : Byte) (s : State) : Result := storeReg k .shutdown data s

/-- DISPTEST data (R187): `reg[k][0x0F] <- data`, display-test. -/
def execDisptest (k : Nat) (data : Byte) (s : State) : Result := storeReg k .dispTest data s

/-- `exec_frame(k, addr, data)` (R173): the row of the map R87 whose address equals `addr`, all 8 bits compared;
no row, no meaning (R188). -/
def execFrame (k : Nat) (addr data : Byte) (s : State) : Result :=
  match addr.toNat with
  | 0x00 => execNoop k data s
  | 0x01 => execDigit1 k data s
  | 0x02 => execDigit2 k data s
  | 0x03 => execDigit3 k data s
  | 0x04 => execDigit4 k data s
  | 0x05 => execDigit5 k data s
  | 0x06 => execDigit6 k data s
  | 0x07 => execDigit7 k data s
  | 0x08 => execDigit8 k data s
  | 0x09 => execDecode k data s
  | 0x0A => execIntensity k data s
  | 0x0B => execScanlimit k data s
  | 0x0C => execShutdown k data s
  | 0x0F => execDisptest k data s
  | _ => .refused (.reservedFrame k addr)

end Sys2Proof.Machine
end

