-- ==== Sys2Proof/Machine/Receiver.lean ====
section
/-! DEFINITION. The receiving cascade's reactions to line events (44_chain_receiver.md R170 to R173, R190), and
`emit` (00_scope.md R9), which appends an event and applies its effect to the line latches and the chain. -/

namespace Sys2Proof.Machine

open Sys2Proof.Config (Pin PerPin)

/-- `stage(k) = S[16*k + 15 : 16*k]` (10_state.md R29). -/
def stage (c : ChainWord) (k : Nat) : Frame := c.extractLsb' (16 * k) 16

/-- `S <- (S << 1 | bit)[16*N - 1 : 0]` (R171). -/
def shiftIn (c : ChainWord) (bit : Bool) : ChainWord := (c <<< 1) ||| (BitVec.ofBool bit).setWidth 64

/-- The bit a chip samples from the data line: its level; a free value from a line never driven (log 6). -/
def sampled (l : Level) (n : Nat) : Bool :=
  match l with
  | .low => false
  | .high => true
  | .undriven => Config.floatingBit n

/-- A `SetLine(p, hi)` is a rising edge when it raises a line that is at 0 (R171, R172); an edge out of `U` is
none (R241; log 22). -/
def isRising (p : Pin) (hi : Bool) (s : State) : Bool := hi && pinGet s.lines p == .low

/-- `SetLine(p, hi)` without a latch: the event is recorded, the line takes the level (R24), and a rising clock
edge shifts the chain, whatever the load line's level (R171; log 14). Nothing else changes (R190). -/
def drive (p : Pin) (hi : Bool) (s : State) : State :=
  let t := record (.setLine p hi) s
  { t with
    lines := pinSet s.lines p (levelOf hi)
    chain := if p == .clk && isRising p hi s then shiftIn s.chain (sampled s.lines.data s.log.length) else s.chain }

/-- The chips of a list execute the frames in their stages. They do so at once (R172); one chip's frame
touches that chip's registers only, so the order of the list is not seen (log 19). -/
def latchChips : List Nat → State → Result
  | [], s => .next s
  | k :: ks, s => andThen (execFrame k (Frame.addr (stage s.chain k)) (Frame.data (stage s.chain k)) s) (latchChips ks)

/-- The latch (R172): every chain chip executes the frame in its stage; `S` is unchanged. -/
def latch (s : State) : Result := latchChips [0, 1, 2, 3] s

/-- `emit(e)` (R9). -/
def emit (e : Event) (s : State) : Result :=
  match e with
  | .cfgOut p => .next (configureOutput p s)
  | .setLine p hi => if p == .load && isRising p hi s then latch (drive p hi s) else .next (drive p hi s)

/-- A list of events, in order (20_memory.md R65). -/
def emitAll : List Event → State → Result
  | [], s => .next s
  | e :: es, s => andThen (emit e s) (emitAll es)

end Sys2Proof.Machine
end

