-- ==== Sys2Proof/Machine/Serial.lean ====
section
/-! DEFINITION. The serial link primitive SENDBYTE (40_serial_link.md R110). Its two lines are not the load
line, so none of its events latches and the operation always completes. -/

namespace Sys2Proof.Machine

/-- One bit (R110): clock low, data to the bit, clock high; the working registers as in R110's realisation
(`DATA <- sr[7]; sr <- sr << 1`) with `bitcnt` the bit index. -/
def sendBit (i : Nat) (s : State) : State :=
  let s := { s with work := { s.work with bitcnt := BitVec.ofNat 3 i } }
  let s := drive .clk false s
  let s := drive .data s.work.sr.msb s
  let s := drive .clk true s
  { s with work := { s.work with sr := s.work.sr <<< 1 } }

/-- The bits i-1 down to 0, most significant first (R57). -/
def sendBits : Nat → State → State
  | 0, s => s
  | i + 1, s => sendBits i (sendBit i s)

/-- SENDBYTE as a step of an operation (R110): `sr <- value`, then eight bits. -/
def opSendByte (value : Byte) (s : State) : State :=
  sendBits 8 { s with work := { s.work with sr := value } }

/-- SENDBYTE value (R110): never ignored, no precondition enforced (R113; log 14). -/
def execSendbyte (value : Byte) (s : State) : Result :=
  command .ready neverIgnored (fun t => .next (opSendByte value t)) s

end Sys2Proof.Machine
end

