-- ==== Sys2Proof/Machine/Protocol.lean ====
section
/-! DEFINITION. The register protocol: the latch transaction, SETREG (41_register_protocol.md R120) and SYNCCOL
(R124). -/

namespace Sys2Proof.Machine

/-- One chip position of a transaction (R86, R120): the register byte, then the data byte. -/
def sendFrame (i : Nat) (addr data : Byte) (s : State) : State :=
  let s := { s with work := { s.work with chipidx := BitVec.ofNat 2 i, bytesel := 0#1 } }
  let s := opSendByte addr s
  let s := { s with work := { s.work with bytesel := 1#1 } }
  opSendByte data s

/-- "drive load line low" (R120). -/
def openLatch (s : State) : State := drive .load false s

/-- "then drive load line high then low again to commit" (R120): the rising edge latches (R172). -/
def closeLatch (s : State) : Result :=
  andThen (emit (.setLine .load true) s) (fun t => .next (drive .load false t))

/-- The same pair at each chip position of a list (R120). -/
def broadcastFrames (reg data : Byte) : List Nat → State → State
  | [], s => s
  | i :: is, s => broadcastFrames reg data is (sendFrame i reg data s)

/-- SETREG as a step of an operation (R120). -/
def opSetReg (reg data : Byte) (s : State) : Result :=
  closeLatch (broadcastFrames reg data positions (openLatch s))

/-- At each chip position i of a list the digit address and the buffer byte `buf[col + 8*i]` (R124). -/
def columnFrames (col : Byte) : List Nat → State → Result
  | [], s => .next s
  | i :: is, s =>
    match memRead (syncIndex col i) s with
    | none => .fault (.noSuchBufferByte (syncIndex col i))
    | some d => columnFrames col is (sendFrame i (digitAddr col) d s)

/-- SYNCCOL as a step of an operation (R124). -/
def opSyncCol (col : Byte) (s : State) : Result :=
  if syncIgnored col s then ignore s
  else andThen (columnFrames col positions (openLatch s)) closeLatch

/-- SETREG reg, data (R120): validates nothing (R123); a reserved `reg` is refused at the latch (R188; log 13). -/
def execSetreg (reg data : Byte) (s : State) : Result :=
  command .ready neverIgnored (opSetReg reg data) s

/-- SYNCCOL col (R124). -/
def execSynccol (col : Byte) (s : State) : Result :=
  command .ready (syncIgnored col) (opSyncCol col) s

end Sys2Proof.Machine
end

