-- ==== Sys2Proof/Machine/Buffer.lean ====
section
/-! DEFINITION. The display buffer and mapper: BUFPIX (42_buffer_mapper.md R140), WRITE (R143), CLEAR (R146). -/

namespace Sys2Proof.Machine

/-- BUFPIX as a step of an operation (R140). -/
def opBufPix (x y value : Byte) (s : State) : Result :=
  if pixelIgnored x y s then ignore s
  else
    match memRead (index x y) s with
    | none => .fault (.noSuchBufferByte (index x y))
    | some old => memWrite (index x y) (pixelByte old (mask y) value) s

/-- WRITE as a step of an operation (R143), with its own guard on both coordinates (R144). -/
def opWrite (x y value : Byte) (s : State) : Result :=
  if pixelIgnored x y s then ignore s
  else andThen (opBufPix x y value s) (opSyncCol x)

/-- SYNCCOL of each column of a list, in order. -/
def syncColumns : List Byte → State → Result
  | [], s => .next s
  | col :: cs, s =>
    andThen (opSyncCol col { s with work := { s.work with colidx := col.setWidth 3 } }) (syncColumns cs)

/-- CLEAR as a step of an operation (R146): all of the buffer first, then the columns ascending. -/
def opClear (s : State) : Result :=
  if clearIgnored s then ignore s
  else andThen (zeroFill s) (syncColumns columns)

/-- BUFPIX x, y, value (R140): never touches the lines. -/
def execBufpix (x y value : Byte) (s : State) : Result :=
  command .ready (pixelIgnored x y) (opBufPix x y value) s

/-- WRITE x, y, value (R143). -/
def execWrite (x y value : Byte) (s : State) : Result :=
  command .ready (pixelIgnored x y) (opWrite x y value) s

/-- CLEAR (R146). -/
def execClear (s : State) : Result := command .ready clearIgnored opClear s

end Sys2Proof.Machine
end

