-- ==== Sys2Proof/Machine/Init.lean ====
section
/-! DEFINITION. The initialisation sequence INIT (43_init_sequence.md R160 to R165). -/

namespace Sys2Proof.Machine

open Sys2Proof.Config (Params)

/-- The five configuration writes in the order of R161, each (register, data byte) (R162). -/
def configWrites (c : Params) : List (Byte × Byte) :=
  [ (0x0A#8, intensityByte c), (0x0B#8, Config.scanAll), (0x0C#8, Config.shutdownNormal),
    (0x09#8, Config.decodeRaw), (0x0F#8, Config.testOff) ]

/-- SETREG of each pair of a list, in order, `cfgidx` counting them. -/
def setRegs : Nat → List (Byte × Byte) → State → Result
  | _, [], s => .next s
  | n, (reg, data) :: rest, s =>
    andThen (opSetReg reg data { s with work := { s.work with cfgidx := BitVec.ofNat 3 n } }) (setRegs (n + 1) rest)

/-- The three `CfgOut` in the order of R161. -/
def configureLines (s : State) : State :=
  configureOutput .load (configureOutput .clk (configureOutput .data s))

/-- "allocate and zero buffer" (R160): zeroed only when allocated. -/
def allocateAndZero (s : State) : Result :=
  let s := allocate s
  if s.bufOk then zeroFill s else .next s

/-- INIT as a step of an operation (R160). -/
def opInit (s : State) : Result :=
  andThen (allocateAndZero (configureLines s)) fun s =>
  andThen (opClear s) fun s =>
  andThen (setRegs 0 (configWrites s.config) s) fun s =>
  .next { s with phase := .ready }

/-- INIT (R160): legal only in phase PreInit (R164). -/
def execInit (s : State) : Result := command .preInit neverIgnored opInit s

end Sys2Proof.Machine
end

