-- ==== Sys2Proof/Machine/Dispatch.lean ====
section
/-! DEFINITION. What each instruction does: one arm for each constructor of Instr. -/

namespace Sys2Proof.Machine

def exec (i : Instr) (s : State) : Host.Outcome State Fault Refusal :=
  match i with
  -- format H
  | .init => Sys2Proof.Machine.execInit s
  | .write x y value => Sys2Proof.Machine.execWrite x y value s
  | .clear => Sys2Proof.Machine.execClear s
  | .bufpix x y value => Sys2Proof.Machine.execBufpix x y value s
  | .synccol col => Sys2Proof.Machine.execSynccol col s
  | .setreg reg data => Sys2Proof.Machine.execSetreg reg data s
  | .sendbyte value => Sys2Proof.Machine.execSendbyte value s
  -- format S
  | .noop chip data => Sys2Proof.Machine.execNoop chip data s
  | .digit1 chip data => Sys2Proof.Machine.execDigit1 chip data s
  | .digit2 chip data => Sys2Proof.Machine.execDigit2 chip data s
  | .digit3 chip data => Sys2Proof.Machine.execDigit3 chip data s
  | .digit4 chip data => Sys2Proof.Machine.execDigit4 chip data s
  | .digit5 chip data => Sys2Proof.Machine.execDigit5 chip data s
  | .digit6 chip data => Sys2Proof.Machine.execDigit6 chip data s
  | .digit7 chip data => Sys2Proof.Machine.execDigit7 chip data s
  | .digit8 chip data => Sys2Proof.Machine.execDigit8 chip data s
  | .decode chip data => Sys2Proof.Machine.execDecode chip data s
  | .intensity chip data => Sys2Proof.Machine.execIntensity chip data s
  | .scanlimit chip data => Sys2Proof.Machine.execScanlimit chip data s
  | .shutdown chip data => Sys2Proof.Machine.execShutdown chip data s
  | .disptest chip data => Sys2Proof.Machine.execDisptest chip data s

end Sys2Proof.Machine
end

