-- ==== Sys2Proof/Machine/Fetch.lean ====
section
/-! DEFINITION. Where the machine takes its next instruction from, and the block's reset. There is no stored
program (20_memory.md R70): a command word is presented on the command port, a frame stands in a chip's stage. -/

namespace Sys2Proof.Machine

/-- Running a decoded word: its instruction, or the refusal of a reserved one (R85, R188). -/
def runWord (w : CodeWord) (s : State) : Result :=
  match decode s.config.exposeInternal w with
  | .ok i => exec i s
  | .error e =>
    match w with
    | .command _ => .refused (.reservedCommand e)
    | .frame k f => .refused (.reservedFrame k (Frame.addr f))

/-- The block's reset (70_reset_and_hazards.md R230, R231): the buffer is discarded, the lines read `U`, the trace
is empty, the cascade is untouched; the working registers are unspecified (R34), the next free draw. It emits
nothing (log 24). -/
def resetBlock (s : State) : State :=
  { State.powerOn s.config (Config.freeWork s.draws) s.chain s.regs with draws := s.draws + 1, host := s.host }

/-- What happens at the next thing the outside offers, taken off the list; with nothing offered the block is
idle and nothing changes (R230, R27; log 8). -/
def serve (s : State) : Result :=
  match s.host with
  | [] => .next s
  | .command cw :: rest => runWord (.command cw) { s with host := rest }
  | .chipLatch k :: rest => runWord (.frame k (stage s.chain k)) { s with host := rest }
  | .reset :: rest => .next (resetBlock { s with host := rest })

/-- `S` with chain chip 0's stage replaced. -/
def withStage0 (c : ChainWord) (f : Frame) : ChainWord := c.extractLsb' 16 48 ++ f

/-- The state in which the next step takes exactly this word: a command word is offered by the host; a frame is
put in the stage of chain chip 0, which alone latches (log 8, log 9). -/
def place (s : State) (nbits w : Nat) : State :=
  if nbits = 16 then
    { s with chain := withStage0 s.chain (BitVec.ofNat 16 w), host := .chipLatch 0 :: s.host }
  else { s with host := .command (BitVec.ofNat 32 w) :: s.host }

end Sys2Proof.Machine
end

