-- ==== Sys2Proof/Machine/Step.lean ====
section
/-! DEFINITION. The step: one whole command, one frame on one chip, one reset, or nothing when nothing is offered
(00_scope.md R13, 92 D9; log 7). -/

namespace Sys2Proof.Machine

def step : State → Host.Outcome State Fault Refusal := serve

def State.withFetchWord (s : State) (nbits w : Nat) : State := place s nbits w

end Sys2Proof.Machine
end

