-- ==== Sys2Proof/Machine/Trace.lean ====
section
/-! DEFINITION. The event lists the rules give the operations (R110, R120, R124, R146, R160), written from the
rules apart from the meanings, and what a reader computes from a trace: transitions and edges (00_scope.md R12). -/

namespace Sys2Proof.Machine

open Sys2Proof.Config (Pin PerPin Params)

/-- The three events of bit i of a byte (R110). -/
def bitEvents (v : Byte) (i : Nat) : List Event :=
  [.setLine .clk false, .setLine .data (v.getLsbD i), .setLine .clk true]

/-- The 24 events of `SENDBYTE v` (R110, R111). -/
def byteEvents (v : Byte) : List Event := [7, 6, 5, 4, 3, 2, 1, 0].flatMap (bitEvents v)

/-- The events of one frame, register byte first (R58). -/
def frameEvents (f : Byte × Byte) : List Event := byteEvents f.1 ++ byteEvents f.2

/-- The events of a latch transaction carrying these frames in this order (R120, R121). -/
def transactionEvents (fs : List (Byte × Byte)) : List Event :=
  .setLine .load false :: (fs.flatMap frameEvents ++ [.setLine .load true, .setLine .load false])

/-- The frames of SETREG (R88): the same pair at every chip position. -/
def broadcastPairs (reg data : Byte) : List (Byte × Byte) := positions.map (fun _ => (reg, data))

/-- The frames of SYNCCOL (R88): the digit address with each module's byte of the column. -/
def columnPairs (col : Byte) (buf : Memory) : List (Byte × Byte) :=
  positions.map (fun i => (digitAddr col, buf.read (syncIndex col i)))

/-- The events of CLEAR not ignored (R146): eight transactions, every data byte 0x00. -/
def clearEvents : List Event := columns.flatMap (fun col => transactionEvents (columnPairs col []))

/-- The events of INIT's five configuration writes (R160, R161). -/
def configEvents (c : Params) : List Event :=
  (configWrites c).flatMap (fun w => transactionEvents (broadcastPairs w.1 w.2))

/-- The events of INIT (R160). -/
def initEvents (c : Params) : List Event :=
  [.cfgOut .data, .cfgOut .clk, .cfgOut .load] ++ ((if c.allocOk then clearEvents else []) ++ configEvents c)

/-- An event with its pin's identifier in the host GPIO addressing scheme (R6): pin, and the level of a
`SetLine` or none for a `CfgOut`. -/
def gpioCall (c : Params) : Event → Nat × Option Bool
  | .cfgOut p => (pinGet c.pins p, none)
  | .setLine p hi => (pinGet c.pins p, some hi)

/-- The trace as calls on the GPIO collaborator (60_exceptions.md R212). -/
def State.gpioTrace (s : State) : List (Nat × Option Bool) := s.trace.map (gpioCall s.config)

/-- The line levels after one event (R24, R25). -/
def lineStep (l : PerPin Level) : Event → PerPin Level
  | .cfgOut _ => l
  | .setLine p hi => pinSet l p (levelOf hi)

/-- The events of a list that are transitions (R12): a `SetLine` whose level differs from the line's before it. -/
def transitions : PerPin Level → List Event → List Event
  | _, [] => []
  | l, .cfgOut _ :: es => transitions l es
  | l, .setLine p hi :: es =>
    let rest := transitions (pinSet l p (levelOf hi)) es
    if pinGet l p = levelOf hi then rest else .setLine p hi :: rest

/-- How many rising edges a line makes in a list of events (R171, R172). -/
def risingEdges (q : Pin) : PerPin Level → List Event → Nat
  | _, [] => 0
  | l, .cfgOut _ :: es => risingEdges q l es
  | l, .setLine p hi :: es =>
    (if p = q ∧ hi = true ∧ pinGet l p = .low then 1 else 0) + risingEdges q (pinSet l p (levelOf hi)) es

/-- How many falling edges, from 1 to 0, a line makes in a list of events (R111). -/
def fallingEdges (q : Pin) : PerPin Level → List Event → Nat
  | _, [] => 0
  | l, .cfgOut _ :: es => fallingEdges q l es
  | l, .setLine p hi :: es =>
    (if p = q ∧ hi = false ∧ pinGet l p = .high then 1 else 0) + fallingEdges q (pinSet l p (levelOf hi)) es

end Sys2Proof.Machine
end

