-- ==== Sys2Proof/Machine/Display.lean ====
section
/-! DEFINITION. The chips seen from outside: reading a chip register by address, what a latch does to a register
file, mirror coherence (20_memory.md R67), and the display function (44_chain_receiver.md R189). -/

namespace Sys2Proof.Machine

open Sys2Proof.Config (Params)

/-- The storing register with an address byte (R31); none for NOOP and for reserved addresses. -/
def RegAddr.ofCode (addr : Byte) : Option RegAddr :=
  if addr = 0x01#8 then some .digit1
  else if addr = 0x02#8 then some .digit2
  else if addr = 0x03#8 then some .digit3
  else if addr = 0x04#8 then some .digit4
  else if addr = 0x05#8 then some .digit5
  else if addr = 0x06#8 then some .digit6
  else if addr = 0x07#8 then some .digit7
  else if addr = 0x08#8 then some .digit8
  else if addr = 0x09#8 then some .decode
  else if addr = 0x0A#8 then some .intensity
  else if addr = 0x0B#8 then some .scanLimit
  else if addr = 0x0C#8 then some .shutdown
  else if addr = 0x0F#8 then some .dispTest
  else none

/-- The address byte is in the map R87. -/
def inMap (addr : Byte) : Bool := addr == 0x00#8 || (RegAddr.ofCode addr).isSome

/-- `reg[k][addr]` (R30). -/
def regAt (s : State) (k : Nat) (addr : Byte) : Option Byte :=
  if h : k < 4 then (RegAddr.ofCode addr).map (fun a => s.regs[k].read a) else none

/-- A register file after a frame of the map (R174 to R187): NOOP changes nothing. -/
def applyFrame (addr data : Byte) (r : ChipRegs) : ChipRegs :=
  match RegAddr.ofCode addr with
  | none => r
  | some a => r.write a data

/-- The chips' registers after SETREG's latch (R122). -/
def broadcastRegs (reg data : Byte) (regs : Vector ChipRegs 4) : Vector ChipRegs 4 :=
  regs.map (applyFrame reg data)

/-- The chips' registers after SYNCCOL's latch (R127): chain chip k receives module N-1-k's byte. -/
def columnRegs (col : Byte) (buf : Memory) (regs : Vector ChipRegs 4) : Vector ChipRegs 4 :=
  Vector.ofFn (fun k : Fin 4 => applyFrame (digitAddr col) (buf.read (syncIndex col (Config.numChips - 1 - k.val))) regs[k])

/-- A register file with its eight digit registers dark. -/
def darkRegs (r : ChipRegs) : ChipRegs :=
  { r with
    digit1 := 0x00#8, digit2 := 0x00#8, digit3 := 0x00#8, digit4 := 0x00#8, digit5 := 0x00#8, digit6 := 0x00#8
    digit7 := 0x00#8, digit8 := 0x00#8 }

/-- A register file with the five configuration registers INIT writes (43_init_sequence.md R165). -/
def configuredRegs (c : Params) (r : ChipRegs) : ChipRegs :=
  { r with
    decode := Config.decodeRaw, intensity := intensityByte c, scanLimit := Config.scanAll
    shutdown := Config.shutdownNormal, dispTest := Config.testOff }

/-- `S` after a transaction of these four frames, the first sent most significant (R58). -/
def chainOf (f0 f1 f2 f3 : Frame) : ChainWord := f0 ++ f1 ++ f2 ++ f3

/-- `S` after SETREG (R122). -/
def broadcastChain (reg data : Byte) : ChainWord :=
  chainOf (frameWord reg data) (frameWord reg data) (frameWord reg data) (frameWord reg data)

/-- `S` after SYNCCOL (R127). -/
def columnChain (col : Byte) (buf : Memory) : ChainWord :=
  chainOf (frameWord (digitAddr col) (buf.read (syncIndex col 0))) (frameWord (digitAddr col) (buf.read (syncIndex col 1)))
    (frameWord (digitAddr col) (buf.read (syncIndex col 2))) (frameWord (digitAddr col) (buf.read (syncIndex col 3)))

/-- `mirrored(c)` (R67). -/
def mirrored (c : Byte) (s : State) : Prop :=
  ∀ m, m < Config.numChips → regAt s (chipOfModule m) (digitAddr c) = some (s.buf.read (syncIndex c m))

/-- Chain chip k has the mode registers INIT writes (R189). -/
def inNormalMode (r : ChipRegs) : Bool :=
  r.decode == Config.decodeRaw && r.scanLimit == Config.scanAll && r.shutdown == Config.shutdownNormal
    && r.dispTest == Config.testOff

/-- `lit(x, y)` (R189); none outside the valid coordinates and in any other configuration, where the spec leaves
it undefined (log 23). -/
def lit (x y : Byte) (s : State) : Option Bool :=
  if coordOutOfRange x y then none
  else if h : chipOfModule (moduleOf y) < 4 then
    if inNormalMode s.regs[chipOfModule (moduleOf y)] then
      (regAt s (chipOfModule (moduleOf y)) (digitAddr x)).map (fun b => b.getLsbD (bitpos y))
    else none
  else none

end Sys2Proof.Machine
end

