-- ==== Sys2Proof/Safety.lean ====
section
/-! DEFINITION. The terms claims use: when the block can be offered a command, the invariant of its states, and
what a sequence of public commands should leave on the display. -/

namespace Sys2Proof.Machine

/-- The block can be offered a command: idle (10_state.md R27, 70_reset_and_hazards.md R238), with distinct pins
(00_scope.md R6). -/
abbrev Idle (s : State) : Prop := s.busy = false ∧ s.seq = 0 ∧ pinsDistinct s.config = true

/-- Idle, after INIT (43_init_sequence.md R164). -/
abbrev Ready (s : State) : Prop := Idle s ∧ s.phase = .ready

/-- Idle, before INIT (R164). -/
abbrev Fresh (s : State) : Prop := Idle s ∧ s.phase = .preInit

/-- A coordinate inside the display (20_memory.md R50). -/
abbrev ValidPixel (x y : Byte) : Prop := x.toNat < 8 ∧ y.toNat < 32

/-- What holds between commands. Before INIT: no buffer, no output, no line driven, nothing in the trace (R34,
R230). After it: the lines are outputs and where a transaction leaves them (41_register_protocol.md R129), and
`buf_ok` is `ALLOC_OK` (R22). Always: idle (R27), the buffer in canonical form, and nothing in it unless it
exists (R20). -/
structure BlockInv (s : State) : Prop where
  idle : s.busy = false ∧ s.seq = 0
  canonical : s.buf.wf = true
  absent : s.bufOk = false → s.buf = []
  before : s.phase = .preInit → s.bufOk = false ∧ s.isOutput = { data := false, clk := false, load := false } ∧
    s.lines = { data := .undriven, clk := .undriven, load := .undriven } ∧ s.log = []
  after : s.phase = .ready → s.bufOk = s.config.allocOk ∧ s.isOutput = { data := true, clk := true, load := true } ∧
    s.lines.clk = .high ∧ s.lines.load = .low ∧ s.lines.data ≠ .undriven

/-- A public command after INIT (R3: the source calls only `write` and `clear` public). -/
inductive PublicOp where
  | write (x y value : Byte)
  | clear
deriving DecidableEq, Repr

/-- The instruction of a public command. -/
def PublicOp.instr : PublicOp → Instr
  | .write x y v => .write x y v
  | .clear => .clear

/-- Instructions one after another. -/
def runAll : List Instr → State → Result
  | [], s => .next s
  | i :: is, s => andThen (exec i s) (runAll is)

/-- The value of the last WRITE to a valid `(x, y)` since the last CLEAR, or what it was (44_chain_receiver.md
R193). -/
def pixelAfter (x y : Byte) : Bool → List PublicOp → Bool
  | b, [] => b
  | _, .clear :: ops => pixelAfter x y false ops
  | b, .write x' y' v :: ops => pixelAfter x y (if x' = x ∧ y' = y then decide (v ≠ 0#8) else b) ops

/-- The bit of a pixel in the buffer (R52). -/
def pixelBit (m : Memory) (x y : Byte) : Bool := (m.read (index x y)).getLsbD (bitpos y)

end Sys2Proof.Machine
end

