-- ==== Sys2Proof/Certificates/Slice0/Obligations.lean ====
section
/-! DEFINITION. The statements for the provers. A rule is cited as R<n>; what rests on the model's own choice is
named with its log entry. -/

open Sys2Proof Sys2Proof.Machine Sys2Proof.Config

/-! ### Reset, the step, legality -/

/-- 70_reset_and_hazards.md R230: a reset between commands leaves the block before construction and the cascade
as it was, and emits nothing; after it, with nothing offered, the block stays idle. The working registers after it
are a free value (log 5); that a reset is offered through `host` is log 24. -/
def Obligations.ResetReturnsBlockToPreInit : Prop :=
  ∀ (s : State) (rest : List Input), s.host = .reset :: rest →
    ∃ t, step s = .next t ∧ t.phase = .preInit ∧ t.bufOk = false ∧ t.buf = [] ∧
      t.isOutput = { data := false, clk := false, load := false } ∧
      t.lines = { data := .undriven, clk := .undriven, load := .undriven } ∧
      t.busy = false ∧ t.seq = 0 ∧ t.trace = [] ∧ t.chain = s.chain ∧ t.regs = s.regs ∧ t.config = s.config ∧
      t.host = rest ∧ (rest = [] → step t = .next t)

/-- The block's part of `State.reset` is R230's, whatever the cascade, the working registers and the parameters are
(those are the model's choice, log 2, log 4, log 5: the statement is about every choice of them). -/
def Obligations.PowerOnStateIsPreInit : Prop :=
  (∀ (c : Params) (w : WorkRegs) (ch : ChainWord) (r : Vector ChipRegs 4),
    let s := State.powerOn c w ch r
    s.phase = .preInit ∧ s.bufOk = false ∧ s.buf = [] ∧ s.isOutput = { data := false, clk := false, load := false } ∧
      s.lines = { data := .undriven, clk := .undriven, load := .undriven } ∧ s.busy = false ∧ s.seq = 0 ∧ s.trace = [])
  ∧ ∃ c w ch r, State.reset = State.powerOn c w ch r

/-- The step runs the word it is offered (92 D9; log 7, log 8, log 9): a command word from the port, or the frame in
the stage of the chip that latches, decoded and executed at the state with the offer taken; a refusal, which names
the reason or the chip and the address byte, for a reserved command word (R85) and for a reserved frame (R188);
nothing when nothing is offered. -/
def Obligations.StepRunsTheDecodedWord : Prop :=
  (∀ (s : State) (cw : CommandWord) (rest : List Input) (i : Instr), s.host = .command cw :: rest →
    decode s.config.exposeInternal (.command cw) = .ok i → step s = exec i { s with host := rest }) ∧
  (∀ (s : State) (k : Nat) (rest : List Input) (i : Instr), s.host = .chipLatch k :: rest →
    decode s.config.exposeInternal (.frame k (stage s.chain k)) = .ok i → step s = exec i { s with host := rest }) ∧
  (∀ (s : State) (cw : CommandWord) (rest : List Input) (e : DecodeError), s.host = .command cw :: rest →
    decode s.config.exposeInternal (.command cw) = .error e → step s = .refused (.reservedCommand e)) ∧
  (∀ (s : State) (k : Nat) (rest : List Input) (e : DecodeError), s.host = .chipLatch k :: rest →
    decode s.config.exposeInternal (.frame k (stage s.chain k)) = .error e →
    step s = .refused (.reservedFrame k (Frame.addr (stage s.chain k)))) ∧
  (∀ s : State, s.host = [] → step s = .next s)

/-- What is placed for the next step is what it runs: a word that decodes by the table's numbering is executed by the
very next step (a 16-bit word as the frame of chain chip 0, log 9; EXPOSE_INTERNAL true, its default). -/
def Obligations.PlacedWordIsRunNext : Prop :=
  ∀ (s : State) (nbits w : Nat) (i : Instr), s.config.exposeInternal = true → decodeTableWord nbits w = some i →
    step (s.withFetchWord nbits w) =
      exec i { s with chain := if nbits = 16 then (s.withFetchWord nbits w).chain else s.chain }

/-- 43_init_sequence.md R164: in PreInit INIT is the only command with a meaning, any other is refused; in Ready INIT
is refused and every other command is legal; only a reset makes a new INIT legal. 93 U13 (log 3): with two of the
three pin identifiers equal every command offered to an idle block is refused, in either phase. -/
def Obligations.CommandLegalityByPhase : Prop :=
  (∀ (s : State) (i : Instr), Fresh s → i.isCommand = true → i ≠ .init → exec i s = .refused .beforeInit) ∧
  (∀ s : State, Fresh s → ∃ t, exec .init s = .next t ∧ t.phase = .ready) ∧
  (∀ s : State, Ready s → exec .init s = .refused .initTwice) ∧
  (∀ (s : State) (i : Instr), Ready s → i ≠ .init →
    exec i s ≠ .refused .beforeInit ∧ exec i s ≠ .refused .initTwice ∧ exec i s ≠ .refused .equalPins) ∧
  (∀ (s t : State) (i : Instr), s.phase = .ready → exec i s = .next t → t.phase = .ready) ∧
  (∀ (s : State) (i : Instr), i.isCommand = true → s.busy = false →
    s.config.pins.data = s.config.pins.clk ∨ s.config.pins.data = s.config.pins.load ∨
      s.config.pins.clk = s.config.pins.load →
    exec i s = .refused .equalPins)

/-- 70_reset_and_hazards.md R238: a command offered while `busy` is 1 is not accepted and has no effect. -/
def Obligations.OfferWhileBusyHasNoEffect : Prop :=
  ∀ (s : State) (i : Instr), s.busy = true → i.isCommand = true → exec i s = .next s

/-! ### Encoding -/

/-- Words written out from the opcode maps (30_encoding.md R82, R87) decode to the instruction they stand for. -/
def Obligations.SampleWordsDecode : Prop :=
  decodeTableWord 32 0x01000000 = some .init ∧
  decodeTableWord 32 0x02031101 = some (.write 3#8 17#8 1#8) ∧
  decodeTableWord 32 0x120C0100 = some (.setreg 0x0C#8 0x01#8) ∧
  decodeTableWord 16 0x0540 = some (.digit5 0 0x40#8) ∧
  decodeTableWord 16 0x0F00 = some (.disptest 0 0x00#8) ∧
  decodeTableWord 16 0x0D00 = none ∧ decodeTableWord 32 0x03000001 = none

/-- 30_encoding.md R83, R86: no operand bit of an encoding is dropped or moved: decoding an encoded instruction gives
it back, for every operation and every value of its operands. -/
def Obligations.DecodeInvertsEncode : Prop :=
  ∀ i : Instr, decode true (encode i) = .ok i ∧ (i.isInternal = false → decode false (encode i) = .ok i)

/-- 30_encoding.md R84, R85: a command word has a meaning exactly when it matches a row of the map that is not hidden
by EXPOSE_INTERNAL; at most one row matches; the operands are the fields as they stand. -/
def Obligations.CommandDecodeFollowsOpcodeMap : Prop :=
  (∀ (expose : Bool) (cw : CommandWord),
    matchesCommandRow expose cw = true ↔ ∃ i, decode expose (.command cw) = .ok i) ∧
  (∀ (expose : Bool) (cw : CommandWord) (i : Instr), decode expose (.command cw) = .ok i → encode i = .command cw) ∧
  (∀ (cw : CommandWord) (r r' : CommandRow), r ∈ commandRows → r' ∈ commandRows →
    cw &&& r.mask = r.pattern → cw &&& r'.mask = r'.pattern → r = r')

/-- 30_encoding.md R87, R91: a frame is one of the fourteen exactly when its whole address byte is in the map, and its
data byte is the frame's low byte. -/
def Obligations.FrameDecodeFollowsOpcodeMap : Prop :=
  (∀ (expose : Bool) (k : Nat) (f : Frame), matchesFrameRow f = true ↔ ∃ i, decode expose (.frame k f) = .ok i) ∧
  (∀ (expose : Bool) (k : Nat) (f : Frame) (i : Instr), decode expose (.frame k f) = .ok i → encode i = .frame k f)

/-- 30_encoding.md R82, R85: with EXPOSE_INTERNAL false the four micro-operations are reserved, and only they change. -/
def Obligations.HiddenMicroOperationsAreReserved : Prop :=
  (∀ i : Instr, i.isInternal = true → ∃ op, decode false (encode i) = .error (.internalNotExposed op)) ∧
  (∀ (w : CodeWord) (i : Instr), decode true w = .ok i → i.isInternal = false → decode false w = .ok i)

/-- 30_encoding.md R85: a command word that matches no row is refused, whatever the state. -/
def Obligations.ReservedCommandWordIsRefused : Prop :=
  ∀ (s : State) (cw : CommandWord) (rest : List Input), s.host = .command cw :: rest →
    matchesCommandRow s.config.exposeInternal cw = false → ∃ e, step s = .refused (.reservedCommand e)

/-! ### Frames, the shift and the latch -/

/-- 44_chain_receiver.md R174: NOOP changes no register of the chip, for every data byte; nor does SETREG 0x00. -/
def Obligations.NoopFrameChangesNoRegister : Prop :=
  (∀ (k : Nat) (d : Byte) (s : State), k < 4 → exec (.noop k d) s = .next s) ∧
  (∀ (d : Byte) (s : State), Ready s → ∃ t, exec (.setreg 0x00#8 d) s = .next t ∧ t.regs = s.regs)

/-- 44_chain_receiver.md R175 to R182: the frame DIGITn stores its byte in `reg[k][n]` and changes nothing else; it is
what SYNCCOL sends for column 8 - n; bit 7 of the byte is the top row of the module's band. -/
def Obligations.DigitFramesStoreColumns : Prop :=
  ∀ p ∈ [(Instr.digit1, RegAddr.digit1, 7#8), (Instr.digit2, RegAddr.digit2, 6#8), (Instr.digit3, RegAddr.digit3, 5#8),
      (Instr.digit4, RegAddr.digit4, 4#8), (Instr.digit5, RegAddr.digit5, 3#8), (Instr.digit6, RegAddr.digit6, 2#8),
      (Instr.digit7, RegAddr.digit7, 1#8), (Instr.digit8, RegAddr.digit8, 0#8)],
    ∀ (k : Nat) (h : k < 4) (d : Byte) (s : State),
      digitAddr p.2.2 = p.2.1.code ∧ decode true (.frame k (frameWord p.2.1.code d)) = .ok (p.1 k d) ∧
      ∃ t, exec (p.1 k d) s = .next t ∧ t = { s with regs := s.regs.set k (s.regs[k].write p.2.1 d) } ∧
        regAt t k p.2.1.code = some d ∧
        (∀ (k' : Nat) (a : Byte), ¬ (k' = k ∧ a = p.2.1.code) → regAt t k' a = regAt s k' a) ∧
        (inNormalMode s.regs[k] = true → ∀ y : Byte, y.toNat < 32 → chipOfModule (moduleOf y) = k →
          lit p.2.2 y t = some (d.getLsbD (7 - y.toNat % 8)))

/-- 44_chain_receiver.md R183 to R187: the five control frames store the whole byte, whatever the chip's mode, and
change nothing else; with a mode byte that is not INIT's the display function is undefined, and the brightness does
not change it. That the whole byte is kept is 92 D24, that a chip in shutdown or display test stores too is 93 U20
(R186's own general knowledge; log 27); that `lit` then answers none is log 23. -/
def Obligations.ControlFramesStoreTheByte : Prop :=
  (∀ p ∈ [(Instr.decode, RegAddr.decode, decodeRaw), (Instr.scanlimit, RegAddr.scanLimit, scanAll),
      (Instr.shutdown, RegAddr.shutdown, shutdownNormal), (Instr.disptest, RegAddr.dispTest, testOff)],
    ∀ (k : Nat) (h : k < 4) (d : Byte) (s : State),
      decode true (.frame k (frameWord p.2.1.code d)) = .ok (p.1 k d) ∧
      ∃ t, exec (p.1 k d) s = .next t ∧ t = { s with regs := s.regs.set k (s.regs[k].write p.2.1 d) } ∧
        regAt t k p.2.1.code = some d ∧
        (∀ (k' : Nat) (a : Byte), ¬ (k' = k ∧ a = p.2.1.code) → regAt t k' a = regAt s k' a) ∧
        (d ≠ p.2.2 → ∀ x y : Byte, chipOfModule (moduleOf y) = k → lit x y t = none)) ∧
  (∀ (k : Nat) (h : k < 4) (d : Byte) (s : State),
      decode true (.frame k (frameWord RegAddr.intensity.code d)) = .ok (.intensity k d) ∧
      ∃ t, exec (.intensity k d) s = .next t ∧ t = { s with regs := s.regs.set k (s.regs[k].write .intensity d) } ∧
        regAt t k RegAddr.intensity.code = some d ∧
        (∀ (k' : Nat) (a : Byte), ¬ (k' = k ∧ a = RegAddr.intensity.code) → regAt t k' a = regAt s k' a) ∧
        ∀ x y : Byte, lit x y t = lit x y s)

/-- 44_chain_receiver.md R188: a frame at 0x0D, 0x0E or 0x10 to 0xFF is refused by the chip that holds it, and so is
the SETREG that sends it; the public commands never reach it, whatever their operands. -/
def Obligations.ReservedFrameIsRefused : Prop :=
  (∀ (k : Nat) (addr d : Byte) (s : State), addr.toNat = 0x0D ∨ addr.toNat = 0x0E ∨ 0x10 ≤ addr.toNat →
    execFrame k addr d s = .refused (.reservedFrame k addr) ∧
    (Ready s → ∃ j, exec (.setreg addr d) s = .refused (.reservedFrame j addr))) ∧
  (∀ (s : State) (op : PublicOp), Ready s → ∃ t, exec op.instr s = .next t) ∧
  (∀ s : State, Fresh s → ∃ t, exec .init s = .next t)

/-- 44_chain_receiver.md R173: a chip executes the frame in its stage as the instruction it decodes to, and refuses
what decodes to none; it depends on nothing but the sixteen bits. -/
def Obligations.ChipExecutesTheDecodedFrame : Prop :=
  ∀ (expose : Bool) (k : Nat) (f : Frame) (s : State),
    execFrame k (Frame.addr f) (Frame.data f) s =
      match decode expose (.frame k f) with
      | .ok i => exec i s
      | .error _ => .refused (.reservedFrame k (Frame.addr f))

/-- 44_chain_receiver.md R171: a rising clock edge shifts the chain by one bit, the data line's level entering at bit
0 and the top bit lost, whatever the load line's level; no chip register changes. -/
def Obligations.RisingClockEdgeShiftsTheChain : Prop :=
  ∀ (s : State) (b : Bool), s.lines.clk = .low → s.lines.data = levelOf b →
    ∃ t, emit (.setLine .clk true) s = .next t ∧ t.regs = s.regs ∧ t.chain.getLsbD 0 = b ∧
      (∀ i, i < 63 → t.chain.getLsbD (i + 1) = s.chain.getLsbD i) ∧
      (∀ k, k < 4 → stage t.chain k =
        (stage s.chain k <<< 1) ||| (BitVec.ofBool (if k = 0 then b else (stage s.chain (k - 1)).getLsbD 15)).setWidth 16)

/-- 44_chain_receiver.md R172: at a rising edge of the load line every chain chip at once executes the frame in its
own stage; `S` is unchanged. Told for stages whose addresses are all in the map; with one that is not, the whole
latch is refused (R188). -/
def Obligations.RisingLoadEdgeLatchesEveryChip : Prop :=
  ∀ s : State, s.lines.load = .low →
    ((∀ k, k < 4 → inMap (Frame.addr (stage s.chain k)) = true) →
      ∃ t, emit (.setLine .load true) s = .next t ∧ t.chain = s.chain ∧ t.buf = s.buf ∧
        ∀ k (h : k < 4), t.regs[k] = applyFrame (Frame.addr (stage s.chain k)) (Frame.data (stage s.chain k)) s.regs[k]) ∧
    ((∃ k, k < 4 ∧ inMap (Frame.addr (stage s.chain k)) = false) →
      ∃ k addr, emit (.setLine .load true) s = .refused (.reservedFrame k addr))

/-- 44_chain_receiver.md R190: a falling edge, a change of the data line, a `SetLine` that does not change its line's
level, and a `CfgOut` have no effect on `S` or on any chip register. -/
def Obligations.OtherEventsLeaveTheCascade : Prop :=
  ∀ (s : State) (e : Event),
    (e = .setLine .clk false ∨ e = .setLine .load false ∨ (∃ b, e = .setLine .data b) ∨ (∃ p, e = .cfgOut p) ∨
      (∃ p b, e = .setLine p b ∧ pinGet s.lines p = levelOf b)) →
    ∃ t, emit e s = .next t ∧ t.chain = s.chain ∧ t.regs = s.regs

/-! ### The serial link -/

/-- 40_serial_link.md R110, R112: SENDBYTE emits its 24 events, most significant bit first, whatever the state's lines
and buffer; it leaves the clock high and the data line at bit 0, the load line as it was, and changes neither the
buffer nor a chip register. R115: with the load line low the chain has lost its top byte and gained the value. (That
the chain shifts also with the load line not low is the model's choice, log 14, and is not claimed.) The working
registers after it are a free value (log 5). -/
def Obligations.SendByteShiftsOutTheValue : Prop :=
  ∀ (v : Byte) (s : State), Ready s → ∃ c,
    exec (.sendbyte v) s = .next { s with
      log := ([7, 6, 5, 4, 3, 2, 1, 0].flatMap
        (fun i => [.setLine .clk false, .setLine .data (v.getLsbD i), .setLine .clk true])).reverse ++ s.log
      lines := { data := levelOf (v.getLsbD 0), clk := .high, load := s.lines.load }
      chain := c
      work := freeWork s.draws
      draws := s.draws + 1 } ∧
    (s.lines.load = .low → c = (s.chain <<< 8) ||| v.setWidth 64)

/-- 40_serial_link.md R111: the events SENDBYTE appends to the trace, read against the lines before it: 24 `SetLine`
events in eight groups of clock low, data bit, clock high, none on the load line; 8 rising clock edges; 8 falling ones
if the clock was at 1, 7 if it was not, the first event being an edge out of `U` if it was undriven; one data
transition for each place where consecutive levels of the data line differ. -/
def Obligations.SendByteEdgeCounts : Prop :=
  ∀ (v : Byte) (s : State), Ready s → ∃ t es, exec (.sendbyte v) s = .next t ∧ t.trace = s.trace ++ es ∧
    es = [7, 6, 5, 4, 3, 2, 1, 0].flatMap
      (fun i => [.setLine .clk false, .setLine .data (v.getLsbD i), .setLine .clk true]) ∧
    es.length = 24 ∧
    (∀ e ∈ es, ∃ b, e = .setLine .clk b ∨ e = .setLine .data b) ∧
    risingEdges .clk s.lines es = 8 ∧
    (s.lines.clk = .high → fallingEdges .clk s.lines es = 8) ∧
    (s.lines.clk ≠ .high → fallingEdges .clk s.lines es = 7) ∧
    (s.lines.clk = .undriven → (transitions s.lines es).head? = some (.setLine .clk false)) ∧
    ((transitions s.lines es).filter (fun e => e == .setLine .data true || e == .setLine .data false)).length =
      ((List.range 8).filter (fun i =>
        (if i = 7 then s.lines.data else levelOf (v.getLsbD (i + 1))) ≠ levelOf (v.getLsbD i))).length

/-! ### The register protocol -/

/-- 41_register_protocol.md R120, R122: SETREG with an address of the map emits one transaction of four equal frames
(R121), fills every stage with the pair, and at the latch every chip stores `data` in `reg[k][reg]` (none for 0x00);
nothing else changes. It reads neither the buffer nor `buf_ok` (R123). The working registers are a free value (log 5). -/
def Obligations.SetRegBroadcastsOnePair : Prop :=
  ∀ (reg data : Byte) (s : State), Ready s → inMap reg = true →
    ∃ t, exec (.setreg reg data) s = .next t ∧
      t = { s with
        log := (transactionEvents [(reg, data), (reg, data), (reg, data), (reg, data)]).reverse ++ s.log
        lines := { data := levelOf (data.getLsbD 0), clk := .high, load := .low }
        chain := (reg ++ data) ++ (reg ++ data) ++ (reg ++ data) ++ (reg ++ data)
        regs := t.regs
        work := freeWork s.draws
        draws := s.draws + 1 } ∧
      (∀ k, k < 4 → stage t.chain k = reg ++ data) ∧
      (∀ k, k < 4 → ∀ a : Byte, a ≠ reg → regAt t k a = regAt s k a) ∧
      (reg ≠ 0x00#8 → ∀ k, k < 4 → regAt t k reg = some data) ∧
      (transactionEvents [(reg, data), (reg, data), (reg, data), (reg, data)]).length = 195

/-- 41_register_protocol.md R124, R126, R127: SYNCCOL of a column below 8 with a buffer emits one transaction whose frame
at chip position i is `(8 - col) ‖ buf[col + 8*i]`, and at the latch chain chip k stores `buf[col + 8*(3-k)]` in
`reg[k][8 - col]` (the chain's direction is 92 D15, log 18); no other register, no buffer byte and nothing else
changes; `mirrored(col)` holds. The working registers are a free value (log 5). -/
def Obligations.SyncColSendsTheColumn : Prop :=
  ∀ (col : Byte) (s : State), Ready s → s.bufOk = true → col.toNat < 8 →
    let b := fun i => s.buf.read (col.toNat + 8 * i)
    let a := 8#8 - col
    ∃ t, exec (.synccol col) s = .next t ∧
      t = { s with
        log := (transactionEvents [(a, b 0), (a, b 1), (a, b 2), (a, b 3)]).reverse ++ s.log
        lines := { data := levelOf ((b 3).getLsbD 0), clk := .high, load := .low }
        chain := (a ++ b 0) ++ (a ++ b 1) ++ (a ++ b 2) ++ (a ++ b 3)
        regs := t.regs
        work := freeWork s.draws
        draws := s.draws + 1 } ∧
      (∀ k, k < 4 → stage t.chain k = a ++ b (3 - k) ∧ regAt t k a = some (b (3 - k))) ∧
      (∀ k, k < 4 → ∀ a' : Byte, a' ≠ a → regAt t k a' = regAt s k a') ∧
      mirrored col t ∧ (transactionEvents [(a, b 0), (a, b 1), (a, b 2), (a, b 3)]).length = 195

/-- 44_chain_receiver.md R191: after one frame following a SETREG transaction, chain chip 0 holds the new frame and every
other chip still holds the old one, so at the next load edge each re-executes it. -/
def Obligations.ShortTransactionLeavesOldFrames : Prop :=
  ∀ (reg data a d : Byte) (s t : State), inMap reg = true → inMap a = true →
    opSetReg reg data s = .next t →
    let u := opSendByte d (opSendByte a t)
    stage u.chain 0 = a ++ d ∧ (∀ k, 1 ≤ k → k < 4 → stage u.chain k = reg ++ data) ∧
    ∃ v, emit (.setLine .load true) u = .next v ∧ v.regs[0] = applyFrame a d t.regs[0] ∧
      ∀ k (h : k < 4), 1 ≤ k → v.regs[k] = applyFrame reg data t.regs[k]

/-- 70_reset_and_hazards.md R236: bytes sent bare with the load line low leave every chip register as it is, and the next
WRITE leaves the chips and the chain as it would have without them. -/
def Obligations.StrayBytesAreFlushed : Prop :=
  ∀ (vs : List Byte) (x y value : Byte) (s t u : State), Ready s → s.lines.load = .low → s.bufOk = true → s.buf.wf = true →
    ValidPixel x y → runAll (vs.map Instr.sendbyte) s = .next t → exec (.write x y value) s = .next u →
    t.regs = s.regs ∧ ∃ w, exec (.write x y value) t = .next w ∧ w.regs = u.regs ∧ w.chain = u.chain ∧ w.buf = u.buf

/-! ### The buffer and the mapper -/

/-- 20_memory.md R54: the mapper is a bijection from the valid coordinates onto the pairs of a buffer index and a bit
position, with the inverse the rule gives. -/
def Obligations.MapperIsBijective : Prop :=
  (∀ x y : Byte, ValidPixel x y → index x y ≤ 31 ∧ bitpos y ≤ 7 ∧ x.toNat = index x y % 8 ∧
    y.toNat = 8 * (index x y / 8) + (7 - bitpos y)) ∧
  (∀ i b : Nat, i < 32 → b ≤ 7 → ∃ x y : Byte, ValidPixel x y ∧ index x y = i ∧ bitpos y = b) ∧
  (∀ x y x' y' : Byte, ValidPixel x y → ValidPixel x' y' → index x y = index x' y' → bitpos y = bitpos y' →
    x = x' ∧ y = y')

/-- 42_buffer_mapper.md R141: the mapper's arithmetic as bit operations. -/
def Obligations.MapperArithmeticAsBits : Prop :=
  ∀ x y : Byte, x.toNat < 8 →
    index x y = ((y &&& 0xF8#8) ||| x).toNat ∧ index x y = x.toNat + (y &&& 0xF8#8).toNat ∧
    y.toNat / 8 = (y >>> 3).toNat ∧ bitpos y = (~~~(y.setWidth 3)).toNat ∧
    mask y = 0x80#8 >>> (y.toNat % 8) ∧ index x y < 256

/-- 42_buffer_mapper.md R140: BUFPIX at a valid coordinate with a buffer replaces one byte, the old one with the mask set
or cleared, and changes nothing else: every other byte, the lines, the trace, the cascade are as they were. The working
registers after it are a free value (log 5). -/
def Obligations.BufPixChangesOneByte : Prop :=
  ∀ (x y value : Byte) (s : State), Ready s → s.bufOk = true → s.buf.wf = true → x.toNat < 8 → y.toNat < 32 →
    let i := x.toNat + 8 * (y.toNat / 8)
    let m : Byte := 1#8 <<< (7 - y.toNat % 8)
    ∃ t, exec (.bufpix x y value) s = .next t ∧
      t = { s with buf := t.buf, work := freeWork s.draws, draws := s.draws + 1 } ∧
      t.buf.wf = true ∧
      t.buf.read i = (if value ≠ 0#8 then s.buf.read i ||| m else s.buf.read i &&& ~~~m) ∧
      ∀ j, j ≠ i → t.buf.read j = s.buf.read j

/-- 42_buffer_mapper.md R142: the addressed bit becomes `value != 0` and every other pixel keeps its bit; BUFPIX is
idempotent; the last write wins; different coordinates commute; set then clear leaves the byte without the mask, which
is the prior byte exactly when the bit was 0. -/
def Obligations.BufPixLaws : Prop :=
  ∀ (x y v1 v2 : Byte) (s t : State), Ready s → s.bufOk = true → s.buf.wf = true → ValidPixel x y →
    exec (.bufpix x y v1) s = .next t →
    (pixelBit t.buf x y = decide (v1 ≠ 0#8) ∧
      ∀ x' y' : Byte, ValidPixel x' y' → (x' ≠ x ∨ y' ≠ y) → pixelBit t.buf x' y' = pixelBit s.buf x' y') ∧
    (∃ u, exec (.bufpix x y v1) t = .next u ∧ u.buf = t.buf) ∧
    (∃ u w, exec (.bufpix x y v2) t = .next u ∧ exec (.bufpix x y v2) s = .next w ∧ u.buf = w.buf) ∧
    (∀ x' y' : Byte, ValidPixel x' y' → (x' ≠ x ∨ y' ≠ y) →
      ∃ u w z, exec (.bufpix x' y' v2) t = .next u ∧ exec (.bufpix x' y' v2) s = .next w ∧
        exec (.bufpix x y v1) w = .next z ∧ u.buf = z.buf) ∧
    (v1 ≠ 0#8 → ∃ u, exec (.bufpix x y 0#8) t = .next u ∧
      u.buf.read (index x y) = s.buf.read (index x y) &&& ~~~(mask y) ∧
      (u.buf.read (index x y) = s.buf.read (index x y) ↔ pixelBit s.buf x y = false))

/-- 42_buffer_mapper.md R140, R143, R145, 41_register_protocol.md R127: WRITE at a valid coordinate with a buffer changes the one buffer byte as BUFPIX does
and then sends the whole column x, for every module, in one transaction that already carries the new byte; the chips
store it; nothing else changes. The mask is 92 D6, the chain's direction 92 D15 (log 18). The working registers are a
free value (log 5). -/
def Obligations.WriteSetsPixelAndRepaintsColumn : Prop :=
  ∀ (x y value : Byte) (s : State), Ready s → s.bufOk = true → s.buf.wf = true → x.toNat < 8 → y.toNat < 32 →
    let i := x.toNat + 8 * (y.toNat / 8)
    let m : Byte := 1#8 <<< (7 - y.toNat % 8)
    let a := 8#8 - x
    ∃ t, exec (.write x y value) s = .next t ∧
      t = { s with
        buf := t.buf
        log := (transactionEvents [(a, t.buf.read x.toNat), (a, t.buf.read (x.toNat + 8)), (a, t.buf.read (x.toNat + 16)),
          (a, t.buf.read (x.toNat + 24))]).reverse ++ s.log
        lines := { data := levelOf ((t.buf.read (x.toNat + 24)).getLsbD 0), clk := .high, load := .low }
        chain := (a ++ t.buf.read x.toNat) ++ (a ++ t.buf.read (x.toNat + 8)) ++ (a ++ t.buf.read (x.toNat + 16)) ++
          (a ++ t.buf.read (x.toNat + 24))
        regs := t.regs
        work := freeWork s.draws
        draws := s.draws + 1 } ∧
      t.buf.wf = true ∧
      t.buf.read i = (if value ≠ 0#8 then s.buf.read i ||| m else s.buf.read i &&& ~~~m) ∧
      (∀ j, j ≠ i → t.buf.read j = s.buf.read j) ∧
      (∀ k, k < 4 → regAt t k a = some (t.buf.read (x.toNat + 8 * (3 - k)))) ∧
      (∀ k, k < 4 → ∀ a' : Byte, a' ≠ a → regAt t k a' = regAt s k a')

/-- 42_buffer_mapper.md R146: CLEAR with a buffer leaves every buffer byte zero and, through eight transactions of columns
0 to 7 in that order, every digit register of every chip zero, the other chip registers as they were. The working
registers are a free value (log 5). -/
def Obligations.ClearZeroesBufferAndDisplay : Prop :=
  ∀ s : State, Ready s → s.bufOk = true → s.buf.wf = true →
    ∃ t, exec .clear s = .next t ∧
      t = { s with
        buf := []
        log := ([8#8, 7#8, 6#8, 5#8, 4#8, 3#8, 2#8, 1#8].flatMap
          (fun a => transactionEvents [(a, 0#8), (a, 0#8), (a, 0#8), (a, 0#8)])).reverse ++ s.log
        lines := { data := .low, clk := .high, load := .low }
        chain := 0x0100010001000100#64
        regs := t.regs
        work := freeWork s.draws
        draws := s.draws + 1 } ∧
      (∀ j, t.buf.read j = 0#8) ∧
      ∀ k, k < 4 →
        (∀ a : Byte, 1 ≤ a.toNat → a.toNat ≤ 8 → regAt t k a = some 0#8) ∧
        ∀ a : Byte, 8 < a.toNat → regAt t k a = regAt s k a

/-- 42_buffer_mapper.md R147: inside a CLEAR, after the j-th latch, columns 0 to j-1 of every module are dark on the chips
and the others show what they showed before, while the buffer is all zero. -/
def Obligations.ClearDarkensColumnsInOrder : Prop :=
  ∀ (s : State) (j : Nat), s.bufOk = true → s.buf.wf = true → j ≤ 8 →
    ∃ u, andThen (zeroFill s) (syncColumns (columns.take j)) = .next u ∧
      opClear s = syncColumns (columns.drop j) u ∧ u.buf = [] ∧
      ∀ k col, k < 4 → col ∈ columns →
        (col.toNat < j → regAt u k (digitAddr col) = some 0#8) ∧
        (j ≤ col.toNat → regAt u k (digitAddr col) = regAt s k (digitAddr col))

/-! ### Silent no-ops -/

/-- 60_exceptions.md R201: WRITE and BUFPIX with a coordinate out of range do nothing at all, whatever the value. -/
def Obligations.OutOfRangeCoordinateIsIgnored : Prop :=
  ∀ (x y value : Byte) (s : State), Ready s → 8 ≤ x.toNat ∨ 32 ≤ y.toNat →
    exec (.write x y value) s = .next s ∧ exec (.bufpix x y value) s = .next s

/-- 60_exceptions.md R202: without a buffer BUFPIX, SYNCCOL, WRITE and CLEAR do nothing at all, while SENDBYTE and SETREG
run as ever; INIT with ALLOC_OK false brings this about, its five configuration writes being performed (R163, 92 D13,
a reading of the source by 90_conflicts.md C8: log 26), and no instruction after it ends it. -/
def Obligations.MissingBufferIsIgnored : Prop :=
  (∀ (s : State) (x y value reg : Byte), Ready s → s.bufOk = false →
    exec (.bufpix x y value) s = .next s ∧ exec (.synccol x) s = .next s ∧ exec (.write x y value) s = .next s ∧
    exec .clear s = .next s ∧
    (∃ t, exec (.sendbyte value) s = .next t ∧ t.trace.length = s.trace.length + 24) ∧
    (inMap reg = true → ∃ t, exec (.setreg reg value) s = .next t ∧ t.trace.length = s.trace.length + 195)) ∧
  (∀ s : State, Fresh s → s.config.allocOk = false →
    ∃ t, exec .init s = .next t ∧ t.phase = .ready ∧ t.bufOk = false ∧ t.trace.length = s.trace.length + 978) ∧
  (∀ (s t : State) (i : Instr), s.phase = .ready → s.bufOk = false → exec i s = .next t →
    t.phase = .ready ∧ t.bufOk = false)

/-- 60_exceptions.md R203: SYNCCOL with a column of 8 or more does nothing at all; it cannot arise inside a WRITE that is
not ignored, nor inside CLEAR or INIT, whose columns are 0 to 7. -/
def Obligations.OutOfRangeColumnIsIgnored : Prop :=
  (∀ (col : Byte) (s : State), Ready s → 8 ≤ col.toNat → exec (.synccol col) s = .next s) ∧
  (∀ (x y : Byte) (s : State), pixelIgnored x y s = false → x.toNat < 8) ∧
  columns.map BitVec.toNat = [0, 1, 2, 3, 4, 5, 6, 7]

/-! ### INIT -/

/-- 43_init_sequence.md R160, R165: INIT with ALLOC_OK true, from any lines and any cascade: its events, and the state it
leaves: buffer all zero, `buf_ok` 1, Ready, the lines as outputs at their idle levels, every digit register zero and
the five configuration registers at INIT's bytes, the chain full of the last frame, every column mirrored. The working
registers are a free value (log 5). -/
def Obligations.InitEstablishesTheReadyState : Prop :=
  ∀ s : State, Fresh s → s.config.allocOk = true →
    ∃ t, exec .init s = .next t ∧
      t = { s with
        phase := .ready
        bufOk := true
        buf := []
        isOutput := { data := true, clk := true, load := true }
        log := (initEvents s.config).reverse ++ s.log
        lines := { data := .low, clk := .high, load := .low }
        chain := 0x0F000F000F000F00#64
        regs := t.regs
        work := freeWork s.draws
        draws := s.draws + 1 } ∧
      (∀ j, t.buf.read j = 0#8) ∧
      (∀ k, k < 4 → (∀ a : Byte, 1 ≤ a.toNat → a.toNat ≤ 8 → regAt t k a = some 0#8) ∧
        regAt t k 0x09#8 = some 0x00#8 ∧ regAt t k 0x0A#8 = some (s.config.intensityLevel.setWidth 8) ∧
        regAt t k 0x0B#8 = some 0x07#8 ∧ regAt t k 0x0C#8 = some 0x01#8 ∧ regAt t k 0x0F#8 = some 0x00#8) ∧
      (∀ c : Byte, c.toNat < 8 → mirrored c t)

/-- The events INIT with ALLOC_OK true appends to the trace, in the order of 43_init_sequence.md R161: three `CfgOut`,
the eight column transactions of zeroes, the five configuration transactions. That order and the constants are the
spec's own choice (92 D12, D21; log 18). -/
def Obligations.InitEventOrder : Prop :=
  ∀ s : State, Fresh s → s.config.allocOk = true →
    ∃ t, exec .init s = .next t ∧
      t.trace = s.trace ++ [.cfgOut .data, .cfgOut .clk, .cfgOut .load] ++
        ([(8#8, 0#8), (7#8, 0#8), (6#8, 0#8), (5#8, 0#8), (4#8, 0#8), (3#8, 0#8), (2#8, 0#8), (1#8, 0#8),
          (0x0A#8, s.config.intensityLevel.setWidth 8), (0x0B#8, 0x07#8), (0x0C#8, 0x01#8), (0x09#8, 0x00#8),
          (0x0F#8, 0x00#8)].flatMap (fun p => transactionEvents [p, p, p, p]))

/-- 43_init_sequence.md R163: when the allocation fails no buffer exists, the clear is ignored and the digit registers keep
what they held, the five configuration writes are still issued (92 D13, a reading of the source by 90_conflicts.md C8:
log 26), the phase is Ready, and from then on WRITE and CLEAR are ignored for ever. The working registers are a free
value (log 5). -/
def Obligations.InitWithoutBufferStillConfigures : Prop :=
  ∀ s : State, Fresh s → s.config.allocOk = false →
    ∃ t, exec .init s = .next t ∧
      t = { s with
        phase := .ready
        bufOk := false
        buf := []
        isOutput := { data := true, clk := true, load := true }
        log := t.log
        lines := { data := .low, clk := .high, load := .low }
        chain := 0x0F000F000F000F00#64
        regs := t.regs
        work := freeWork s.draws
        draws := s.draws + 1 } ∧
      t.trace = s.trace ++ [.cfgOut .data, .cfgOut .clk, .cfgOut .load] ++
        ([(0x0A#8, s.config.intensityLevel.setWidth 8), (0x0B#8, 0x07#8), (0x0C#8, 0x01#8), (0x09#8, 0x00#8),
          (0x0F#8, 0x00#8)].flatMap (fun p => transactionEvents [p, p, p, p])) ∧
      (∀ k, k < 4 → (∀ a : Byte, 1 ≤ a.toNat → a.toNat ≤ 8 → regAt t k a = regAt s k a) ∧
        regAt t k 0x09#8 = some 0x00#8 ∧ regAt t k 0x0A#8 = some (s.config.intensityLevel.setWidth 8) ∧
        regAt t k 0x0B#8 = some 0x07#8 ∧ regAt t k 0x0C#8 = some 0x01#8 ∧ regAt t k 0x0F#8 = some 0x00#8) ∧
      ∀ ops : List PublicOp, runAll (ops.map PublicOp.instr) t = .next t

/-! ### Whole-machine rules -/

/-- 70_reset_and_hazards.md R240: how many events each operation not ignored emits, and how many rising clock and load
edges they make, from any lines. The count of INIT with ALLOC_OK false rests on 92 D13 (log 26). -/
def Obligations.EventCountsOfTheOperations : Prop :=
  (∀ (s : State) (i : Instr) (nEvents nCfgOut nClk nLoad : Nat),
    ((∃ v, i = .sendbyte v ∧ Ready s) ∧ (nEvents, nCfgOut, nClk, nLoad) = (24, 0, 8, 0)) ∨
    ((∃ r d, i = .setreg r d ∧ inMap r = true ∧ Ready s) ∧ (nEvents, nCfgOut, nClk, nLoad) = (195, 0, 64, 1)) ∨
    ((∃ c, i = .synccol c ∧ c.toNat < 8 ∧ s.bufOk = true ∧ Ready s) ∧ (nEvents, nCfgOut, nClk, nLoad) = (195, 0, 64, 1)) ∨
    ((∃ x y v, i = .bufpix x y v ∧ ValidPixel x y ∧ s.bufOk = true ∧ Ready s) ∧
      (nEvents, nCfgOut, nClk, nLoad) = (0, 0, 0, 0)) ∨
    ((∃ x y v, i = .write x y v ∧ ValidPixel x y ∧ s.bufOk = true ∧ Ready s) ∧
      (nEvents, nCfgOut, nClk, nLoad) = (195, 0, 64, 1)) ∨
    ((i = .clear ∧ s.bufOk = true ∧ s.buf.wf = true ∧ Ready s) ∧ (nEvents, nCfgOut, nClk, nLoad) = (1560, 0, 512, 8)) ∨
    ((i = .init ∧ s.config.allocOk = true ∧ Fresh s) ∧ (nEvents, nCfgOut, nClk, nLoad) = (2538, 3, 832, 13)) ∨
    ((i = .init ∧ s.config.allocOk = false ∧ Fresh s) ∧ (nEvents, nCfgOut, nClk, nLoad) = (978, 3, 320, 5)) →
    ∃ t es, exec i s = .next t ∧ t.trace = s.trace ++ es ∧ es.length = nEvents ∧
      (es.filter (fun e => e == .cfgOut .data || e == .cfgOut .clk || e == .cfgOut .load)).length = nCfgOut ∧
      risingEdges .clk s.lines es = nClk ∧ risingEdges .load s.lines es = nLoad)

/-- 20_memory.md R65 (b): the lines and the cascade after a command are what the events it emitted make of the lines and
the cascade before it. -/
def Obligations.CascadeFollowsTheTrace : Prop :=
  ∀ (i : Instr) (s t : State), i.isCommand = true → Idle s → exec i s = .next t →
    ∃ es u, t.trace = s.trace ++ es ∧ emitAll es s = .next u ∧
      u.lines = t.lines ∧ u.isOutput = t.isOutput ∧ u.chain = t.chain ∧ u.regs = t.regs

/-- 60_exceptions.md R200: the block raises no exception: no well-formed instruction faults, in any state, and no step
faults unless it is offered a latch of a chip the cascade does not have (the model's own offer, log 9). -/
def Obligations.NoInstructionFaults : Prop :=
  (∀ (i : Instr) (s : State) (f : Fault), i.wellFormed = true → exec i s ≠ .fault f) ∧
  (∀ (s : State) (f : Fault), (∀ k rest, s.host = .chipLatch k :: rest → k < 4) → step s ≠ .fault f)

/-- 10_state.md R35: the parameters are configuration: no step changes them. -/
def Obligations.NoStepChangesTheConfiguration : Prop :=
  ∀ s t : State, step s = .next t → t.config = s.config

/-- 10_state.md R22, R23: `buf_ok`, the phase and the pin directions are changed by INIT and by a reset only; INIT writes
`buf_ok` from ALLOC_OK and sets the phase to Ready, and nothing but a reset sets it back. -/
def Obligations.OnlyInitAndResetChangeTheFlag : Prop :=
  (∀ (s t : State) (i : Instr), exec i s = .next t →
    (t.bufOk = s.bufOk ∧ t.phase = s.phase ∧ t.isOutput = s.isOutput) ∨
    (i = .init ∧ s.phase = .preInit ∧ t.phase = .ready ∧ t.bufOk = s.config.allocOk)) ∧
  (∀ s t : State, step s = .next t → s.phase = .ready → t.phase = .preInit → ∃ rest, s.host = .reset :: rest)

/-- 10_state.md R35, 60_exceptions.md R211: only BUFPIX, WRITE, CLEAR, INIT and a reset change the buffer, and a
frame changes no state of the block: it leaves all but its chip's register file as it was. -/
def Obligations.OnlyBufferCommandsChangeTheBuffer : Prop :=
  (∀ (s t : State) (i : Instr), exec i s = .next t → t.buf ≠ s.buf →
    (∃ x y v, i = .bufpix x y v) ∨ (∃ x y v, i = .write x y v) ∨ i = .clear ∨ i = .init) ∧
  (∀ (s t : State) (i : Instr) (k : Nat), i.chip? = some k → exec i s = .next t →
    t = { s with regs := t.regs } ∧ ∀ k' a, k' ≠ k → regAt t k' a = regAt s k' a)

/-- The invariant of the machine between commands (10_state.md R20, R22, R27, R34; 41_register_protocol.md R129) is
kept by every step from every state that meets it. -/
def Obligations.EveryStepKeepsTheInvariant : Prop :=
  ∀ s t : State, BlockInv s → step s = .next t → BlockInv t

/-- The invariant holds right after reset, whatever the parameters, the working registers and the cascade. -/
def Obligations.InvariantHoldsAfterReset : Prop :=
  BlockInv State.reset ∧ ∀ (c : Params) (w : WorkRegs) (ch : ChainWord) (r : Vector ChipRegs 4), BlockInv (State.powerOn c w ch r)

/-- 40_serial_link.md R113: after INIT, from every state that meets the invariant, the load line is low whenever a command
can be offered, so a SENDBYTE on the command port always meets its precondition. -/
def Obligations.LoadLineIsLowBetweenCommands : Prop :=
  ∀ (s t : State) (i : Instr), BlockInv s → s.phase = .ready → exec i s = .next t → s.lines.load = .low ∧ t.lines.load = .low

/-! ### Mirror coherence and the display -/

/-- 20_memory.md R67 (b): every WRITE, valid or ignored, and every CLEAR keep every mirrored column mirrored. -/
def Obligations.PublicCommandsKeepTheMirror : Prop :=
  ∀ (s t : State) (op : PublicOp) (c : Byte), Ready s → s.bufOk = true → s.buf.wf = true → c.toNat < 8 →
    mirrored c s → exec op.instr s = .next t → mirrored c t

/-- 20_memory.md R67 (c), R68: BUFPIX alone leaves the other columns mirrored, SETREG to a digit address breaks at most
that column, and a SYNCCOL of a column restores it and keeps the others. -/
def Obligations.SyncColRestoresTheMirror : Prop :=
  ∀ (s t : State) (c : Byte), Ready s → s.bufOk = true → s.buf.wf = true → c.toNat < 8 →
    (∀ x y v : Byte, exec (.bufpix x y v) s = .next t → c ≠ x → mirrored c s → mirrored c t) ∧
    (∀ r d : Byte, exec (.setreg r d) s = .next t → r ≠ 8#8 - c → mirrored c s → mirrored c t) ∧
    (∀ col : Byte, col.toNat < 8 → exec (.synccol col) s = .next t → (c = col ∨ mirrored c s) → mirrored c t)

/-- 20_memory.md R63: a SYNCCOL repeated with an unchanged buffer changes no chip register, and CLEAR twice equals once in
the buffer, the lines and the cascade. -/
def Obligations.SyncColAndClearAreIdempotent : Prop :=
  (∀ (s t u : State) (col : Byte), Ready s → exec (.synccol col) s = .next t → exec (.synccol col) t = .next u →
    u.regs = t.regs ∧ u.buf = t.buf) ∧
  (∀ s t u : State, Ready s → s.buf.wf = true → exec .clear s = .next t → exec .clear t = .next u →
    u.buf = t.buf ∧ u.regs = t.regs ∧ u.chain = t.chain ∧ u.lines = t.lines)

/-- 44_chain_receiver.md R189: in INIT's configuration of the chip that drives the pixel's module, the pixel is lit exactly
when its bit of that chip's digit register is 1; in any other configuration `lit` is undefined (log 23); and a
mirrored column shows the buffer. -/
def Obligations.DisplayShowsTheDigitRegisters : Prop :=
  ∀ (s : State) (x y : Byte), ValidPixel x y →
    ∃ h : 3 - y.toNat / 8 < 4,
      (inNormalMode s.regs[3 - y.toNat / 8] = true →
        ∃ b, regAt s (3 - y.toNat / 8) (8#8 - x) = some b ∧ lit x y s = some (b.getLsbD (7 - y.toNat % 8)) ∧
          (mirrored x s → lit x y s = some (pixelBit s.buf x y))) ∧
      (inNormalMode s.regs[3 - y.toNat / 8] = false → lit x y s = none)

/-- 44_chain_receiver.md R193: after INIT with ALLOC_OK true and any sequence of WRITE and CLEAR, from any lines and any
cascade, every valid pixel is lit exactly when its buffer bit is 1, and that bit is the `value != 0` of the last
WRITE to it since the last CLEAR or INIT, or 0. -/
def Obligations.DisplayShowsTheLastWrite : Prop :=
  ∀ (s : State) (ops : List PublicOp), Fresh s → s.config.allocOk = true →
    ∃ t, runAll (.init :: ops.map PublicOp.instr) s = .next t ∧
      ∀ x y : Byte, ValidPixel x y →
        lit x y t = some (pixelBit t.buf x y) ∧ pixelBit t.buf x y = pixelAfter x y false ops

/-- 20_memory.md R67: with a buffer, a BUFPIX alone that changes its pixel leaves its mirrored column no longer mirrored;
a SETREG to a column's digit address leaves the column not mirrored when its byte is not the one the buffer holds for
some module. -/
def Obligations.BareWritesBreakTheMirror : Prop :=
  ∀ (s : State) (c : Byte), Ready s → s.bufOk = true → s.buf.wf = true → c.toNat < 8 →
    (∀ y v : Byte, y.toNat < 32 → mirrored c s → pixelBit s.buf c y ≠ decide (v ≠ 0#8) →
      ∃ t, exec (.bufpix c y v) s = .next t ∧ ¬ mirrored c t) ∧
    (∀ (d : Byte) (m : Nat), m < 4 → d ≠ s.buf.read (c.toNat + 8 * m) →
      ∃ t, exec (.setreg (8#8 - c) d) s = .next t ∧ ¬ mirrored c t)
end

