-- ==== Sys2Proof/Laws/State.lean ====
section
/-! SUPPORT. One lemma per field per update of the state, each true by definition. -/

namespace Sys2Proof.Machine

open Sys2Proof.Config (Pin PerPin)

@[simp] theorem record_config (e : Event) (s : State) : (record e s).config = s.config := rfl
@[simp] theorem record_phase (e : Event) (s : State) : (record e s).phase = s.phase := rfl
@[simp] theorem record_bufOk (e : Event) (s : State) : (record e s).bufOk = s.bufOk := rfl
@[simp] theorem record_buf (e : Event) (s : State) : (record e s).buf = s.buf := rfl
@[simp] theorem record_isOutput (e : Event) (s : State) : (record e s).isOutput = s.isOutput := rfl
@[simp] theorem record_lines (e : Event) (s : State) : (record e s).lines = s.lines := rfl
@[simp] theorem record_busy (e : Event) (s : State) : (record e s).busy = s.busy := rfl
@[simp] theorem record_seq (e : Event) (s : State) : (record e s).seq = s.seq + 1 := rfl
@[simp] theorem record_work (e : Event) (s : State) : (record e s).work = s.work := rfl
@[simp] theorem record_log (e : Event) (s : State) : (record e s).log = e :: s.log := rfl
@[simp] theorem record_chain (e : Event) (s : State) : (record e s).chain = s.chain := rfl
@[simp] theorem record_regs (e : Event) (s : State) : (record e s).regs = s.regs := rfl
@[simp] theorem record_draws (e : Event) (s : State) : (record e s).draws = s.draws := rfl
@[simp] theorem record_host (e : Event) (s : State) : (record e s).host = s.host := rfl

@[simp] theorem configureOutput_config (p : Pin) (s : State) : (configureOutput p s).config = s.config := rfl
@[simp] theorem configureOutput_phase (p : Pin) (s : State) : (configureOutput p s).phase = s.phase := rfl
@[simp] theorem configureOutput_bufOk (p : Pin) (s : State) : (configureOutput p s).bufOk = s.bufOk := rfl
@[simp] theorem configureOutput_buf (p : Pin) (s : State) : (configureOutput p s).buf = s.buf := rfl
@[simp] theorem configureOutput_isOutput (p : Pin) (s : State) : (configureOutput p s).isOutput = pinSet s.isOutput p true := rfl
@[simp] theorem configureOutput_lines (p : Pin) (s : State) : (configureOutput p s).lines = s.lines := rfl
@[simp] theorem configureOutput_busy (p : Pin) (s : State) : (configureOutput p s).busy = s.busy := rfl
@[simp] theorem configureOutput_seq (p : Pin) (s : State) : (configureOutput p s).seq = s.seq + 1 := rfl
@[simp] theorem configureOutput_work (p : Pin) (s : State) : (configureOutput p s).work = s.work := rfl
@[simp] theorem configureOutput_log (p : Pin) (s : State) : (configureOutput p s).log = .cfgOut p :: s.log := rfl
@[simp] theorem configureOutput_chain (p : Pin) (s : State) : (configureOutput p s).chain = s.chain := rfl
@[simp] theorem configureOutput_regs (p : Pin) (s : State) : (configureOutput p s).regs = s.regs := rfl
@[simp] theorem configureOutput_draws (p : Pin) (s : State) : (configureOutput p s).draws = s.draws := rfl
@[simp] theorem configureOutput_host (p : Pin) (s : State) : (configureOutput p s).host = s.host := rfl

@[simp] theorem accept_config (s : State) : (accept s).config = s.config := rfl
@[simp] theorem accept_phase (s : State) : (accept s).phase = s.phase := rfl
@[simp] theorem accept_bufOk (s : State) : (accept s).bufOk = s.bufOk := rfl
@[simp] theorem accept_buf (s : State) : (accept s).buf = s.buf := rfl
@[simp] theorem accept_isOutput (s : State) : (accept s).isOutput = s.isOutput := rfl
@[simp] theorem accept_lines (s : State) : (accept s).lines = s.lines := rfl
@[simp] theorem accept_busy (s : State) : (accept s).busy = true := rfl
@[simp] theorem accept_seq (s : State) : (accept s).seq = s.seq := rfl
@[simp] theorem accept_work (s : State) : (accept s).work = s.work := rfl
@[simp] theorem accept_log (s : State) : (accept s).log = s.log := rfl
@[simp] theorem accept_chain (s : State) : (accept s).chain = s.chain := rfl
@[simp] theorem accept_regs (s : State) : (accept s).regs = s.regs := rfl
@[simp] theorem accept_draws (s : State) : (accept s).draws = s.draws := rfl
@[simp] theorem accept_host (s : State) : (accept s).host = s.host := rfl

@[simp] theorem finish_config (s : State) : (finish s).config = s.config := rfl
@[simp] theorem finish_phase (s : State) : (finish s).phase = s.phase := rfl
@[simp] theorem finish_bufOk (s : State) : (finish s).bufOk = s.bufOk := rfl
@[simp] theorem finish_buf (s : State) : (finish s).buf = s.buf := rfl
@[simp] theorem finish_isOutput (s : State) : (finish s).isOutput = s.isOutput := rfl
@[simp] theorem finish_lines (s : State) : (finish s).lines = s.lines := rfl
@[simp] theorem finish_busy (s : State) : (finish s).busy = false := rfl
@[simp] theorem finish_seq (s : State) : (finish s).seq = 0 := rfl
@[simp] theorem finish_work (s : State) : (finish s).work = Config.freeWork s.draws := rfl
@[simp] theorem finish_log (s : State) : (finish s).log = s.log := rfl
@[simp] theorem finish_chain (s : State) : (finish s).chain = s.chain := rfl
@[simp] theorem finish_regs (s : State) : (finish s).regs = s.regs := rfl
@[simp] theorem finish_draws (s : State) : (finish s).draws = s.draws + 1 := rfl
@[simp] theorem finish_host (s : State) : (finish s).host = s.host := rfl

@[simp] theorem allocate_config (s : State) : (allocate s).config = s.config := rfl
@[simp] theorem allocate_phase (s : State) : (allocate s).phase = s.phase := rfl
@[simp] theorem allocate_bufOk (s : State) : (allocate s).bufOk = s.config.allocOk := rfl
@[simp] theorem allocate_buf (s : State) : (allocate s).buf = [] := rfl
@[simp] theorem allocate_isOutput (s : State) : (allocate s).isOutput = s.isOutput := rfl
@[simp] theorem allocate_lines (s : State) : (allocate s).lines = s.lines := rfl
@[simp] theorem allocate_busy (s : State) : (allocate s).busy = s.busy := rfl
@[simp] theorem allocate_seq (s : State) : (allocate s).seq = s.seq := rfl
@[simp] theorem allocate_work (s : State) : (allocate s).work = s.work := rfl
@[simp] theorem allocate_log (s : State) : (allocate s).log = s.log := rfl
@[simp] theorem allocate_chain (s : State) : (allocate s).chain = s.chain := rfl
@[simp] theorem allocate_regs (s : State) : (allocate s).regs = s.regs := rfl
@[simp] theorem allocate_draws (s : State) : (allocate s).draws = s.draws := rfl
@[simp] theorem allocate_host (s : State) : (allocate s).host = s.host := rfl

@[simp] theorem drive_config (p : Pin) (hi : Bool) (s : State) : (drive p hi s).config = s.config := rfl
@[simp] theorem drive_phase (p : Pin) (hi : Bool) (s : State) : (drive p hi s).phase = s.phase := rfl
@[simp] theorem drive_bufOk (p : Pin) (hi : Bool) (s : State) : (drive p hi s).bufOk = s.bufOk := rfl
@[simp] theorem drive_buf (p : Pin) (hi : Bool) (s : State) : (drive p hi s).buf = s.buf := rfl
@[simp] theorem drive_isOutput (p : Pin) (hi : Bool) (s : State) : (drive p hi s).isOutput = s.isOutput := rfl
@[simp] theorem drive_lines (p : Pin) (hi : Bool) (s : State) : (drive p hi s).lines = pinSet s.lines p (levelOf hi) := rfl
@[simp] theorem drive_busy (p : Pin) (hi : Bool) (s : State) : (drive p hi s).busy = s.busy := rfl
@[simp] theorem drive_seq (p : Pin) (hi : Bool) (s : State) : (drive p hi s).seq = s.seq + 1 := rfl
@[simp] theorem drive_work (p : Pin) (hi : Bool) (s : State) : (drive p hi s).work = s.work := rfl
@[simp] theorem drive_log (p : Pin) (hi : Bool) (s : State) : (drive p hi s).log = .setLine p hi :: s.log := rfl
@[simp] theorem drive_regs (p : Pin) (hi : Bool) (s : State) : (drive p hi s).regs = s.regs := rfl
@[simp] theorem drive_draws (p : Pin) (hi : Bool) (s : State) : (drive p hi s).draws = s.draws := rfl
@[simp] theorem drive_host (p : Pin) (hi : Bool) (s : State) : (drive p hi s).host = s.host := rfl

@[simp] theorem resetBlock_config (s : State) : (resetBlock s).config = s.config := rfl
@[simp] theorem resetBlock_phase (s : State) : (resetBlock s).phase = .preInit := rfl
@[simp] theorem resetBlock_bufOk (s : State) : (resetBlock s).bufOk = false := rfl
@[simp] theorem resetBlock_buf (s : State) : (resetBlock s).buf = [] := rfl
@[simp] theorem resetBlock_isOutput (s : State) : (resetBlock s).isOutput = { data := false, clk := false, load := false } := rfl
@[simp] theorem resetBlock_lines (s : State) : (resetBlock s).lines = { data := .undriven, clk := .undriven, load := .undriven } := rfl
@[simp] theorem resetBlock_busy (s : State) : (resetBlock s).busy = false := rfl
@[simp] theorem resetBlock_seq (s : State) : (resetBlock s).seq = 0 := rfl
@[simp] theorem resetBlock_work (s : State) : (resetBlock s).work = Config.freeWork s.draws := rfl
@[simp] theorem resetBlock_log (s : State) : (resetBlock s).log = [] := rfl
@[simp] theorem resetBlock_chain (s : State) : (resetBlock s).chain = s.chain := rfl
@[simp] theorem resetBlock_regs (s : State) : (resetBlock s).regs = s.regs := rfl
@[simp] theorem resetBlock_draws (s : State) : (resetBlock s).draws = s.draws + 1 := rfl
@[simp] theorem resetBlock_host (s : State) : (resetBlock s).host = s.host := rfl

@[simp] theorem record_trace (e : Event) (s : State) : (record e s).trace = s.trace ++ [e] := by
  simp [State.trace]

@[simp] theorem pinGet_set_same {α : Type} (v : PerPin α) (p : Pin) (a : α) : pinGet (pinSet v p a) p = a := by
  cases p <;> rfl

@[simp] theorem pinGet_set_other {α : Type} (v : PerPin α) (p q : Pin) (a : α) (h : q ≠ p) :
    pinGet (pinSet v p a) q = pinGet v q := by
  cases p <;> cases q <;> first | rfl | exact absurd rfl h

@[simp] theorem levelOf_true : levelOf true = .high := rfl
@[simp] theorem levelOf_false : levelOf false = .low := rfl

theorem levelOf_ne_undriven (b : Bool) : levelOf b ≠ .undriven := by cases b <;> simp

/-- A driven line is sampled at its level. -/
@[simp] theorem sampled_levelOf (b : Bool) (n : Nat) : sampled (levelOf b) n = b := by cases b <;> rfl

/-- States with the same fields are the same. -/
theorem State.eq_of_fields {s t : State} (h0 : s.config = t.config) (h1 : s.phase = t.phase) (h2 : s.bufOk = t.bufOk) (h3 : s.buf = t.buf) (h4 : s.isOutput = t.isOutput) (h5 : s.lines = t.lines) (h6 : s.busy = t.busy) (h7 : s.seq = t.seq) (h8 : s.work = t.work) (h9 : s.log = t.log) (h10 : s.chain = t.chain) (h11 : s.regs = t.regs) (h12 : s.draws = t.draws) (h13 : s.host = t.host) :
    s = t := by
  cases s; cases t; simp_all

@[simp] theorem andThen_next (s : State) (f : State → Result) : andThen (.next s) f = f s := rfl
@[simp] theorem andThen_fault (e : Fault) (f : State → Result) : andThen (.fault e) f = .fault e := rfl
@[simp] theorem andThen_refused (e : Refusal) (f : State → Result) : andThen (.refused e) f = .refused e := rfl

/-- A sequence that answers a next state passed through a next state of its first part. -/
theorem andThen_eq_next {r : Result} {f : State → Result} {t : State} (h : andThen r f = .next t) :
    ∃ u, r = .next u ∧ f u = .next t := by
  cases r with
  | next u => exact ⟨u, rfl, h⟩
  | fault e => simp at h
  | refused e => simp at h

theorem andThen_assoc (r : Result) (f g : State → Result) :
    andThen (andThen r f) g = andThen r (fun s => andThen (f s) g) := by
  cases r <;> rfl

end Sys2Proof.Machine
end

