-- ==== Sys2Proof/Laws/Chain.lean ====
section
/-! SUPPORT. The chain shift register: eight shifts push a byte, eight bytes fill it, and each stage holds its
frame. -/

namespace Sys2Proof.Machine

/-- `S` after a byte has been shifted in (40_serial_link.md R115). -/
def pushByte (c : ChainWord) (v : Byte) : ChainWord := (c <<< 8) ||| v.setWidth 64

theorem shiftIn_toNat (c : ChainWord) (b : Bool) : (shiftIn c b).toNat = (2 * c.toNat + b.toNat) % 2 ^ 64 := by
  have h : shiftIn c b = (c ++ BitVec.ofBool b).setWidth 64 := by
    apply BitVec.eq_of_getLsbD_eq
    intro i hi
    simp only [shiftIn, BitVec.getLsbD_or, BitVec.getLsbD_shiftLeft, BitVec.getLsbD_setWidth, BitVec.getLsbD_append, hi,
      decide_true, Bool.true_and]
    by_cases h0 : i < 1
    · simp [h0]
    · have h1 : i ≠ 0 := by omega
      simp [h0, h1]
  rw [h, BitVec.toNat_setWidth, BitVec.toNat_append, ← Nat.shiftLeft_add_eq_or_of_lt (by cases b <;> decide)]
  simp [Nat.shiftLeft_eq, Nat.mul_comm]

theorem pushByte_toNat (c : ChainWord) (v : Byte) : (pushByte c v).toNat = (256 * c.toNat + v.toNat) % 2 ^ 64 := by
  have h : pushByte c v = (c ++ v).setWidth 64 := by
    apply BitVec.eq_of_getLsbD_eq
    intro i hi
    simp only [pushByte, BitVec.getLsbD_or, BitVec.getLsbD_shiftLeft, BitVec.getLsbD_setWidth, BitVec.getLsbD_append, hi,
      decide_true, Bool.true_and]
    by_cases h0 : i < 8
    · simp [h0]
    · simp [h0, BitVec.getLsbD_of_ge v i (by omega)]
  rw [h, BitVec.toNat_setWidth, BitVec.toNat_append, ← Nat.shiftLeft_add_eq_or_of_lt v.isLt]
  simp [Nat.shiftLeft_eq, Nat.mul_comm]

theorem byte_bits (v : Byte) : v.toNat = 128 * (v.getLsbD 7).toNat + 64 * (v.getLsbD 6).toNat + 32 * (v.getLsbD 5).toNat
    + 16 * (v.getLsbD 4).toNat + 8 * (v.getLsbD 3).toNat + 4 * (v.getLsbD 2).toNat + 2 * (v.getLsbD 1).toNat
    + (v.getLsbD 0).toNat := by
  revert v; decide

/-- Eight shifts, most significant bit first, push the byte. -/
theorem shiftIn_byte (c : ChainWord) (v : Byte) :
    shiftIn (shiftIn (shiftIn (shiftIn (shiftIn (shiftIn (shiftIn (shiftIn c (v.getLsbD 7)) (v.getLsbD 6)) (v.getLsbD 5))
      (v.getLsbD 4)) (v.getLsbD 3)) (v.getLsbD 2)) (v.getLsbD 1)) (v.getLsbD 0) = pushByte c v := by
  apply BitVec.eq_of_toNat_eq
  simp only [shiftIn_toNat, pushByte_toNat]
  rw [byte_bits v]
  omega

theorem frameWord_toNat (a d : Byte) : (frameWord a d).toNat = 256 * a.toNat + d.toNat := by
  rw [frameWord, BitVec.toNat_append, ← Nat.shiftLeft_add_eq_or_of_lt d.isLt]
  simp [Nat.shiftLeft_eq, Nat.mul_comm]

theorem chainOf_toNat (f0 f1 f2 f3 : Frame) :
    (chainOf f0 f1 f2 f3).toNat = 2 ^ 48 * f0.toNat + 2 ^ 32 * f1.toNat + 2 ^ 16 * f2.toNat + f3.toNat := by
  simp only [chainOf]
  rw [BitVec.toNat_append, ← Nat.shiftLeft_add_eq_or_of_lt f3.isLt, BitVec.toNat_append,
    ← Nat.shiftLeft_add_eq_or_of_lt f2.isLt, BitVec.toNat_append, ← Nat.shiftLeft_add_eq_or_of_lt f1.isLt]
  simp only [Nat.shiftLeft_eq]
  omega

/-- Four frames fill the chain, whatever it held (41_register_protocol.md R122). -/
theorem pushByte_chain (c : ChainWord) (a0 d0 a1 d1 a2 d2 a3 d3 : Byte) :
    pushByte (pushByte (pushByte (pushByte (pushByte (pushByte (pushByte (pushByte c a0) d0) a1) d1) a2) d2) a3) d3
      = chainOf (frameWord a0 d0) (frameWord a1 d1) (frameWord a2 d2) (frameWord a3 d3) := by
  apply BitVec.eq_of_toNat_eq
  simp only [pushByte_toNat, chainOf_toNat, frameWord_toNat]
  omega

theorem stage_toNat (c : ChainWord) (k : Nat) : (stage c k).toNat = c.toNat / 2 ^ (16 * k) % 2 ^ 16 := by
  simp [stage, BitVec.extractLsb'_toNat, Nat.shiftRight_eq_div_pow]

theorem stage_chainOf_0 (f0 f1 f2 f3 : Frame) : stage (chainOf f0 f1 f2 f3) 0 = f3 := by
  apply BitVec.eq_of_toNat_eq
  rw [stage_toNat, chainOf_toNat]; omega
theorem stage_chainOf_1 (f0 f1 f2 f3 : Frame) : stage (chainOf f0 f1 f2 f3) 1 = f2 := by
  apply BitVec.eq_of_toNat_eq
  rw [stage_toNat, chainOf_toNat]; omega
theorem stage_chainOf_2 (f0 f1 f2 f3 : Frame) : stage (chainOf f0 f1 f2 f3) 2 = f1 := by
  apply BitVec.eq_of_toNat_eq
  rw [stage_toNat, chainOf_toNat]; omega
theorem stage_chainOf_3 (f0 f1 f2 f3 : Frame) : stage (chainOf f0 f1 f2 f3) 3 = f0 := by
  apply BitVec.eq_of_toNat_eq
  rw [stage_toNat, chainOf_toNat]; omega

theorem frame_addr (a d : Byte) : Frame.addr (frameWord a d) = a := by
  apply BitVec.eq_of_toNat_eq
  simp only [Frame.addr, BitVec.extractLsb'_toNat, frameWord_toNat, Nat.shiftRight_eq_div_pow]; omega
theorem frame_data (a d : Byte) : Frame.data (frameWord a d) = d := by
  apply BitVec.eq_of_toNat_eq
  simp only [Frame.data, BitVec.extractLsb'_toNat, frameWord_toNat, Nat.shiftRight_eq_div_pow]; omega

end Sys2Proof.Machine
end

