-- ==== Sys2Proof/Laws/Link.lean ====
section
/-! SUPPORT. What the serial link, the frames and the latch do, each said once. -/

namespace Sys2Proof.Machine

open Sys2Proof.Config (Pin PerPin)

/-- One bit of SENDBYTE, whatever the lines were. -/
theorem sendBit_eq (i : Nat) (s : State) : sendBit i s =
    { s with
      work := { s.work with bitcnt := BitVec.ofNat 3 i, sr := s.work.sr <<< 1 }
      log := .setLine .clk true :: .setLine .data s.work.sr.msb :: .setLine .clk false :: s.log
      seq := s.seq + 3
      lines := { s.lines with clk := .high, data := levelOf s.work.sr.msb }
      chain := shiftIn s.chain s.work.sr.msb } := by
  simp [sendBit, drive, record, isRising, pinGet, pinSet]

theorem msb_shifted (v : Byte) : v.msb = v.getLsbD 7 ∧ (v <<< 1).msb = v.getLsbD 6 ∧ (v <<< 1 <<< 1).msb = v.getLsbD 5
    ∧ (v <<< 1 <<< 1 <<< 1).msb = v.getLsbD 4 ∧ (v <<< 1 <<< 1 <<< 1 <<< 1).msb = v.getLsbD 3
    ∧ (v <<< 1 <<< 1 <<< 1 <<< 1 <<< 1).msb = v.getLsbD 2 ∧ (v <<< 1 <<< 1 <<< 1 <<< 1 <<< 1 <<< 1).msb = v.getLsbD 1
    ∧ (v <<< 1 <<< 1 <<< 1 <<< 1 <<< 1 <<< 1 <<< 1).msb = v.getLsbD 0
    ∧ v <<< 1 <<< 1 <<< 1 <<< 1 <<< 1 <<< 1 <<< 1 <<< 1 = 0#8 := by
  revert v; decide

/-- SENDBYTE (40_serial_link.md R110, R112, R115): its events, the lines after it, the chain after it. -/
theorem opSendByte_eq (v : Byte) (s : State) : opSendByte v s =
    { s with
      work := { s.work with sr := 0#8, bitcnt := 0#3 }
      log := (byteEvents v).reverse ++ s.log
      seq := s.seq + 24
      lines := { s.lines with clk := .high, data := levelOf (v.getLsbD 0) }
      chain := pushByte s.chain v } := by
  obtain ⟨h7, h6, h5, h4, h3, h2, h1, h0, hz⟩ := msb_shifted v
  simp only [opSendByte, sendBits, sendBit_eq, h7, h6, h5, h4, h3, h2, h1, h0, hz, shiftIn_byte]
  rfl

/-- One chip position of a transaction. -/
theorem sendFrame_eq (i : Nat) (a d : Byte) (s : State) : sendFrame i a d s =
    { s with
      work := { s.work with chipidx := BitVec.ofNat 2 i, bytesel := 1#1, sr := 0#8, bitcnt := 0#3 }
      log := (frameEvents (a, d)).reverse ++ s.log
      seq := s.seq + 48
      lines := { s.lines with clk := .high, data := levelOf (d.getLsbD 0) }
      chain := pushByte (pushByte s.chain a) d } := by
  simp only [sendFrame, opSendByte_eq, frameEvents, List.reverse_append, List.append_assoc]

/-! ### Frames on a chip -/

theorem applyFrame_noop (d : Byte) (r : ChipRegs) : applyFrame 0x00#8 d r = r := rfl

/-- What SYNCCOL's frame writes for each column (10_state.md R32). -/
theorem applyFrame_column (d : Byte) (r : ChipRegs) :
    applyFrame (digitAddr 0#8) d r = { r with digit8 := d } ∧ applyFrame (digitAddr 1#8) d r = { r with digit7 := d }
    ∧ applyFrame (digitAddr 2#8) d r = { r with digit6 := d } ∧ applyFrame (digitAddr 3#8) d r = { r with digit5 := d }
    ∧ applyFrame (digitAddr 4#8) d r = { r with digit4 := d } ∧ applyFrame (digitAddr 5#8) d r = { r with digit3 := d }
    ∧ applyFrame (digitAddr 6#8) d r = { r with digit2 := d } ∧ applyFrame (digitAddr 7#8) d r = { r with digit1 := d } :=
  ⟨rfl, rfl, rfl, rfl, rfl, rfl, rfl, rfl⟩

theorem storeReg_eq {k : Nat} (h : k < 4) (a : RegAddr) (v : Byte) (s : State) :
    storeReg k a v s = .next { s with regs := s.regs.set k (s.regs[k].write a v) } := by
  simp [storeReg, h]

theorem set_self {k : Nat} (h : k < 4) (v : Vector ChipRegs 4) : v.set k v[k] = v := by
  ext i hi
  · rw [Vector.getElem_set]; split <;> simp_all

/-- A frame whose address is in the map changes the chip's register file by `applyFrame` and nothing else
(44_chain_receiver.md R173 to R187). -/
theorem execFrame_eq {k : Nat} (h : k < 4) (addr data : Byte) (s : State) (hm : inMap addr = true) :
    execFrame k addr data s = .next { s with regs := s.regs.set k (applyFrame addr data s.regs[k]) } := by
  have key : ∀ a : Byte, inMap a = true → a = 0x00#8 ∨ a = 0x01#8 ∨ a = 0x02#8 ∨ a = 0x03#8 ∨ a = 0x04#8 ∨ a = 0x05#8
      ∨ a = 0x06#8 ∨ a = 0x07#8 ∨ a = 0x08#8 ∨ a = 0x09#8 ∨ a = 0x0A#8 ∨ a = 0x0B#8 ∨ a = 0x0C#8 ∨ a = 0x0F#8 := by
    decide
  rcases key addr hm with rfl | rfl | rfl | rfl | rfl | rfl | rfl | rfl | rfl | rfl | rfl | rfl | rfl | rfl
  · rw [applyFrame_noop, set_self h]
    show execNoop k data s = _
    simp [execNoop, h]
  all_goals exact storeReg_eq h _ data s

/-- A frame whose address is not in the map has no meaning (R188). -/
theorem execFrame_reserved (k : Nat) (addr data : Byte) (s : State) (hm : inMap addr = false) :
    execFrame k addr data s = .refused (.reservedFrame k addr) := by
  have key : ∀ a : Byte, inMap a = false → 0x10 ≤ a.toNat ∨ a.toNat = 0x0D ∨ a.toNat = 0x0E := by decide
  have h := key addr hm
  unfold execFrame
  split <;> first | rfl | (exfalso; omega)

/-- The latch (R172) when every stage's address is in the map. -/
theorem latch_eq (s : State) (hm : ∀ k, k < 4 → inMap (Frame.addr (stage s.chain k)) = true) :
    latch s = .next { s with regs := Vector.ofFn (fun k : Fin 4 =>
      applyFrame (Frame.addr (stage s.chain k)) (Frame.data (stage s.chain k)) s.regs[k]) } := by
  simp only [latch, latchChips, execFrame_eq (k := 0) (by decide) _ _ _ (hm 0 (by decide)), andThen_next,
    execFrame_eq (k := 1) (by decide) _ _ _ (hm 1 (by decide)), execFrame_eq (k := 2) (by decide) _ _ _ (hm 2 (by decide)),
    execFrame_eq (k := 3) (by decide) _ _ _ (hm 3 (by decide))]
  congr 2
  ext i hi
  · have : i = 0 ∨ i = 1 ∨ i = 2 ∨ i = 3 := by omega
    rcases this with rfl | rfl | rfl | rfl <;> simp

/-- The load line raised from 0 latches; nothing else of a `SetLine` on it does. -/
theorem emit_raiseLoad (s : State) (h : s.lines.load = .low) :
    emit (.setLine .load true) s = latch (drive .load true s) := by
  simp [emit, isRising, pinGet, h]

theorem emit_eq_drive (p : Pin) (hi : Bool) (s : State) (h : p ≠ .load ∨ isRising p hi s = false) :
    emit (.setLine p hi) s = .next (drive p hi s) := by
  rcases h with h | h <;> simp [emit, h]

/-- Moving the load line changes nothing but the trace, the sequencer and the latch of that line. -/
theorem drive_load (hi : Bool) (s : State) : drive .load hi s =
    { s with log := .setLine .load hi :: s.log, seq := s.seq + 1, lines := { s.lines with load := levelOf hi } } := by
  simp [drive, record, pinSet]

end Sys2Proof.Machine
end

