-- ==== Sys2Proof/Laws/Memory.lean ====
section
/-! SUPPORT. The display buffer: read after write, the canonical form and that every operation keeps it, and that
equal readings in canonical form are equal data. -/

namespace Sys2Proof.Machine

@[simp] theorem Memory.read_nil (i : Nat) : Memory.read [] i = 0x00#8 := rfl

theorem Memory.wfFrom_mono {lo lo' : Nat} {m : Memory} (h : Memory.wfFrom lo m = true) (hl : lo' ≤ lo) :
    Memory.wfFrom lo' m = true := by
  cases m with
  | nil => rfl
  | cons c m =>
    obtain ⟨a, b⟩ := c
    simp only [Memory.wfFrom, Bool.and_eq_true, decide_eq_true_eq] at h ⊢
    exact ⟨⟨⟨by omega, h.1.1.2⟩, h.1.2⟩, h.2⟩

/-- Below the first address of a canonical list every byte is unlisted. -/
theorem Memory.read_below {lo : Nat} {m : Memory} (h : Memory.wfFrom lo m = true) {i : Nat} (hi : i < lo) :
    Memory.read m i = 0x00#8 := by
  induction m generalizing lo with
  | nil => rfl
  | cons c m ih =>
    obtain ⟨a, b⟩ := c
    simp only [Memory.wfFrom, Bool.and_eq_true, decide_eq_true_eq] at h
    have : a ≠ i := by omega
    simp only [Memory.read, this, if_false]
    exact ih h.2 (by omega)

theorem Memory.read_cell (i : Nat) (b : Byte) (m : Memory) (j : Nat) (h : Memory.read m i = 0x00#8) :
    Memory.read (Memory.cell i b m) j = if j = i then b else Memory.read m j := by
  unfold Memory.cell
  by_cases hb : b = Memory.unlisted
  · rw [if_pos hb]
    by_cases hj : j = i
    · subst hj; rw [h, if_pos rfl, hb]; rfl
    · rw [if_neg hj]
  · rw [if_neg hb]
    simp only [Memory.read, eq_comm]

theorem Memory.read_writeFrom {lo : Nat} {m : Memory} (h : Memory.wfFrom lo m = true) (i : Nat) (b : Byte) (j : Nat) :
    Memory.read (Memory.write m i b) j = if j = i then b else Memory.read m j := by
  induction m generalizing lo with
  | nil => exact Memory.read_cell i b [] j rfl
  | cons c m ih =>
    obtain ⟨a, c⟩ := c
    have hw := h
    simp only [Memory.wfFrom, Bool.and_eq_true, decide_eq_true_eq] at h
    unfold Memory.write
    by_cases h1 : i < a
    · rw [if_pos h1]
      refine Memory.read_cell i b _ j (Memory.read_below (lo := a) ?_ h1)
      simp only [Memory.wfFrom, Bool.and_eq_true, decide_eq_true_eq]
      exact ⟨⟨⟨le_refl _, h.1.1.2⟩, h.1.2⟩, h.2⟩
    · rw [if_neg h1]
      by_cases h2 : i = a
      · subst h2
        rw [if_pos rfl, Memory.read_cell i b m j (Memory.read_below h.2 (by omega))]
        by_cases hj : j = i
        · simp [hj]
        · simp [hj, Memory.read, Ne.symm hj]
      · rw [if_neg h2]
        simp only [Memory.read, ih h.2]
        by_cases hj : a = j
        · have : j ≠ i := by omega
          simp [hj, this]
        · simp [hj]

/-- Read after write on a canonical buffer: the written byte, every other byte as before. -/
theorem Memory.read_write {m : Memory} (h : m.wf = true) (i : Nat) (b : Byte) (j : Nat) :
    (m.write i b).read j = if j = i then b else m.read j :=
  Memory.read_writeFrom h i b j

theorem Memory.wfFrom_cell {lo : Nat} {m : Memory} {i : Nat} (b : Byte) (h : Memory.wfFrom (i + 1) m = true)
    (hl : lo ≤ i) (hi : i < Config.bufLen) : Memory.wfFrom lo (Memory.cell i b m) = true := by
  unfold Memory.cell
  by_cases hb : b = Memory.unlisted
  · rw [if_pos hb]; exact Memory.wfFrom_mono h (by omega)
  · rw [if_neg hb]
    simp only [Memory.wfFrom, Bool.and_eq_true, decide_eq_true_eq, bne_iff_ne, ne_eq]
    exact ⟨⟨⟨hl, hi⟩, hb⟩, h⟩

theorem Memory.wfFrom_write {lo : Nat} {m : Memory} (h : Memory.wfFrom lo m = true) {i : Nat} (b : Byte)
    (hl : lo ≤ i) (hi : i < Config.bufLen) : Memory.wfFrom lo (Memory.write m i b) = true := by
  induction m generalizing lo with
  | nil => exact Memory.wfFrom_cell b rfl hl hi
  | cons c m ih =>
    obtain ⟨a, c⟩ := c
    have hw := h
    simp only [Memory.wfFrom, Bool.and_eq_true, decide_eq_true_eq] at h
    unfold Memory.write
    by_cases h1 : i < a
    · rw [if_pos h1]
      refine Memory.wfFrom_cell b ?_ hl hi
      simp only [Memory.wfFrom, Bool.and_eq_true, decide_eq_true_eq]
      exact ⟨⟨⟨by omega, h.1.1.2⟩, h.1.2⟩, h.2⟩
    · rw [if_neg h1]
      by_cases h2 : i = a
      · subst h2; rw [if_pos rfl]; exact Memory.wfFrom_cell b h.2 hl hi
      · rw [if_neg h2]
        simp only [Memory.wfFrom, Bool.and_eq_true, decide_eq_true_eq]
        exact ⟨⟨⟨h.1.1.1, h.1.1.2⟩, h.1.2⟩, ih h.2 (by omega)⟩

/-- A write inside the buffer keeps the canonical form. -/
theorem Memory.wf_write {m : Memory} (h : m.wf = true) {i : Nat} (b : Byte) (hi : i < Config.bufLen) :
    (m.write i b).wf = true :=
  Memory.wfFrom_write h b (Nat.zero_le i) hi

theorem Memory.extFrom {lo : Nat} {m m' : Memory} (h : Memory.wfFrom lo m = true) (h' : Memory.wfFrom lo m' = true)
    (e : ∀ i, Memory.read m i = Memory.read m' i) : m = m' := by
  induction m generalizing lo m' with
  | nil =>
    cases m' with
    | nil => rfl
    | cons c m' =>
      obtain ⟨a, b⟩ := c
      simp only [Memory.wfFrom, Bool.and_eq_true, decide_eq_true_eq, bne_iff_ne, ne_eq] at h'
      have := e a
      simp only [Memory.read, if_true] at this
      exact absurd this.symm h'.1.2
  | cons c m ih =>
    obtain ⟨a, b⟩ := c
    have hm := h
    simp only [Memory.wfFrom, Bool.and_eq_true, decide_eq_true_eq, bne_iff_ne, ne_eq] at h
    cases m' with
    | nil =>
      have := e a
      simp only [Memory.read, if_true] at this
      exact absurd this h.1.2
    | cons c' m' =>
      obtain ⟨a', b'⟩ := c'
      have hm' := h'
      simp only [Memory.wfFrom, Bool.and_eq_true, decide_eq_true_eq, bne_iff_ne, ne_eq] at h'
      have ha : a = a' := by
        rcases Nat.lt_trichotomy a a' with hlt | heq | hgt
        · have := e a
          rw [Memory.read_below (lo := a') (m := (a', b') :: m') ?_ hlt] at this
          · simp only [Memory.read, if_true] at this
            exact absurd this h.1.2
          · simp only [Memory.wfFrom, Bool.and_eq_true, decide_eq_true_eq, bne_iff_ne, ne_eq]
            exact ⟨⟨⟨le_refl _, h'.1.1.2⟩, h'.1.2⟩, h'.2⟩
        · exact heq
        · have := e a'
          rw [Memory.read_below (lo := a) (m := (a, b) :: m) ?_ hgt] at this
          · simp only [Memory.read, if_true] at this
            exact absurd this.symm h'.1.2
          · simp only [Memory.wfFrom, Bool.and_eq_true, decide_eq_true_eq, bne_iff_ne, ne_eq]
            exact ⟨⟨⟨le_refl _, h.1.1.2⟩, h.1.2⟩, h.2⟩
      subst ha
      have hb : b = b' := by simpa [Memory.read] using e a
      subst hb
      congr 1
      refine ih h.2 h'.2 (fun i => ?_)
      by_cases hi : a = i
      · subst hi
        rw [Memory.read_below h.2 (by omega), Memory.read_below h'.2 (by omega)]
      · simpa [Memory.read, hi] using e i

/-- Canonical buffers with the same bytes are the same data. -/
theorem Memory.ext {m m' : Memory} (h : m.wf = true) (h' : m'.wf = true) (e : ∀ i, m.read i = m'.read i) : m = m' :=
  Memory.extFrom h h' e

/-- Outside the buffer a canonical list has no byte. -/
theorem Memory.read_outsideFrom {lo : Nat} {m : Memory} (h : Memory.wfFrom lo m = true) {i : Nat}
    (hi : Config.bufLen ≤ i) : Memory.read m i = 0x00#8 := by
  induction m generalizing lo with
  | nil => rfl
  | cons c m ih =>
    obtain ⟨a, b⟩ := c
    simp only [Memory.wfFrom, Bool.and_eq_true, decide_eq_true_eq] at h
    have : a ≠ i := by omega
    simp only [Memory.read, this, if_false]
    exact ih h.2

theorem Memory.read_outside {m : Memory} (h : m.wf = true) {i : Nat} (hi : Config.bufLen ≤ i) : m.read i = 0x00#8 :=
  Memory.read_outsideFrom h hi

/-! ### Accesses of the state -/

theorem memRead_eq {i : Nat} {s : State} (h : s.bufOk = true) (hi : i < 32) : memRead i s = some (s.buf.read i) := by
  simp [memRead, hasByte, h, hi]

theorem memWrite_eq {i : Nat} (v : Byte) {s : State} (h : s.bufOk = true) (hi : i < 32) :
    memWrite i v s = .next { s with buf := s.buf.write i v } := by
  simp [memWrite, hasByte, h, hi]

/-- What zeroing the bytes of a list does: the rest of the state is unchanged, the form is kept, the bytes are zero. -/
theorem zeroBytes_spec (is : List Nat) (his : ∀ i ∈ is, i < 32) (s : State) (h : s.bufOk = true) (hw : s.buf.wf = true) :
    ∃ m : Memory, zeroBytes is s = .next { s with buf := m } ∧ m.wf = true ∧
      ∀ j, m.read j = if j ∈ is then 0x00#8 else s.buf.read j := by
  induction is generalizing s with
  | nil => exact ⟨s.buf, rfl, hw, fun j => by simp⟩
  | cons i is ih =>
    have hi : i < 32 := his i (by simp)
    obtain ⟨m, e, hm, hr⟩ := ih (fun j hj => his j (by simp [hj])) { s with buf := s.buf.write i 0x00#8 } h
      (Memory.wf_write hw _ hi)
    refine ⟨m, ?_, hm, fun j => ?_⟩
    · simp only [zeroBytes, memWrite_eq _ h hi, andThen_next, e]
    · rw [hr j, Memory.read_write hw]
      by_cases hj : j = i <;> by_cases hjs : j ∈ is <;> simp [hj, hjs]

/-- Zeroing bytes of a buffer that exists always completes and changes nothing but the buffer. -/
theorem zeroBytes_completes (is : List Nat) (his : ∀ i ∈ is, i < 32) (s : State) (h : s.bufOk = true) :
    ∃ m : Memory, zeroBytes is s = .next { s with buf := m } := by
  induction is generalizing s with
  | nil => exact ⟨s.buf, rfl⟩
  | cons i is ih =>
    obtain ⟨m, e⟩ := ih (fun j hj => his j (by simp [hj])) { s with buf := s.buf.write i 0x00#8 } h
    exact ⟨m, by simp only [zeroBytes, memWrite_eq _ h (his i (by simp)), andThen_next, e]⟩

theorem zeroFill_completes (s : State) (h : s.bufOk = true) : ∃ m : Memory, zeroFill s = .next { s with buf := m } :=
  zeroBytes_completes _ (fun i hi => by simpa using hi) s h

/-- The zero-fill leaves the buffer with nothing listed. -/
theorem zeroFill_eq (s : State) (h : s.bufOk = true) (hw : s.buf.wf = true) :
    zeroFill s = .next { s with buf := [] } := by
  obtain ⟨m, e, hm, hr⟩ := zeroBytes_spec (List.range Config.bufLen) (fun i hi => by simpa using hi) s h hw
  have : m = [] := Memory.ext hm rfl (fun i => by
    rw [hr i, Memory.read_nil]
    by_cases hi : i < Config.bufLen
    · simp [hi]
    · simp [hi, Memory.read_outside hw (Nat.le_of_not_lt hi)])
  rw [zeroFill, e, this]

end Sys2Proof.Machine
end

