-- ==== Sys2Proof/Laws/Protocol.lean ====
section
/-! SUPPORT. The latch transaction, SETREG and SYNCCOL as steps of an operation, each said once. -/

namespace Sys2Proof.Machine

open Sys2Proof.Config (Pin PerPin)

/-- The state after a latch transaction of four frames whose addresses are in the map (41_register_protocol.md R121,
R122, R129). -/
def transacted (f0 f1 f2 f3 : Byte × Byte) (s : State) : State :=
  { s with
    work := { s.work with chipidx := 3#2, bytesel := 1#1, sr := 0#8, bitcnt := 0#3 }
    log := (transactionEvents [f0, f1, f2, f3]).reverse ++ s.log
    seq := s.seq + 195
    lines := { data := levelOf (f3.2.getLsbD 0), clk := .high, load := .low }
    chain := chainOf (frameWord f0.1 f0.2) (frameWord f1.1 f1.2) (frameWord f2.1 f2.2) (frameWord f3.1 f3.2)
    regs := #v[applyFrame f3.1 f3.2 s.regs[0], applyFrame f2.1 f2.2 s.regs[1], applyFrame f1.1 f1.2 s.regs[2],
      applyFrame f0.1 f0.2 s.regs[3]] }

theorem closeLatch_eq (s : State) (hl : s.lines.load = .low) (f0 f1 f2 f3 : Byte × Byte)
    (hc : s.chain = chainOf (frameWord f0.1 f0.2) (frameWord f1.1 f1.2) (frameWord f2.1 f2.2) (frameWord f3.1 f3.2))
    (h0 : inMap f0.1 = true) (h1 : inMap f1.1 = true) (h2 : inMap f2.1 = true) (h3 : inMap f3.1 = true) :
    closeLatch s = .next { s with
      log := .setLine .load false :: .setLine .load true :: s.log
      seq := s.seq + 2
      regs := #v[applyFrame f3.1 f3.2 s.regs[0], applyFrame f2.1 f2.2 s.regs[1], applyFrame f1.1 f1.2 s.regs[2],
        applyFrame f0.1 f0.2 s.regs[3]] } := by
  have hs : ∀ k, k < 4 → inMap (Frame.addr (stage (drive .load true s).chain k)) = true := by
    intro k hk
    have : k = 0 ∨ k = 1 ∨ k = 2 ∨ k = 3 := by omega
    rw [drive_load]
    rcases this with rfl | rfl | rfl | rfl <;>
      simp only [hc, stage_chainOf_0, stage_chainOf_1, stage_chainOf_2, stage_chainOf_3, frame_addr, h0, h1, h2, h3]
  rw [closeLatch, emit_raiseLoad s hl, latch_eq _ hs, andThen_next]
  simp only [drive_load, hc]
  congr 1
  simp only [State.mk.injEq, true_and, and_true]
  refine ⟨?_, ?_⟩
  · rw [levelOf_false, ← hl]
  · ext i hi
    · have : i = 0 ∨ i = 1 ∨ i = 2 ∨ i = 3 := by omega
      rcases this with rfl | rfl | rfl | rfl <;>
        simp [stage_chainOf_0, stage_chainOf_1, stage_chainOf_2, stage_chainOf_3, frame_addr, frame_data]

/-- Four frames between "load low" and the pulse are one transaction. -/
theorem transaction_eq (f0 f1 f2 f3 : Byte × Byte) (s : State)
    (h0 : inMap f0.1 = true) (h1 : inMap f1.1 = true) (h2 : inMap f2.1 = true) (h3 : inMap f3.1 = true) :
    closeLatch (sendFrame 3 f3.1 f3.2 (sendFrame 2 f2.1 f2.2 (sendFrame 1 f1.1 f1.2 (sendFrame 0 f0.1 f0.2 (openLatch s)))))
      = .next (transacted f0 f1 f2 f3 s) := by
  rw [closeLatch_eq _ (by simp [sendFrame_eq, openLatch, drive_load]) f0 f1 f2 f3
    (by simp only [sendFrame_eq, pushByte_chain]) h0 h1 h2 h3]
  simp only [sendFrame_eq, openLatch, drive_load, transacted, transactionEvents, List.flatMap_cons, List.flatMap_nil,
    List.append_nil, List.reverse_cons, List.reverse_append, List.append_assoc, List.reverse_nil, List.nil_append,
    List.cons_append, levelOf_false, pushByte_chain]

/-- SETREG with an address of the map (R120 to R122). -/
theorem opSetReg_eq (reg data : Byte) (s : State) (h : inMap reg = true) :
    opSetReg reg data s = .next (transacted (reg, data) (reg, data) (reg, data) (reg, data) s) :=
  transaction_eq (reg, data) (reg, data) (reg, data) (reg, data) s h h h h

theorem closeLatch_reserved (s : State) (hl : s.lines.load = .low)
    (h : inMap (Frame.addr (stage s.chain 0)) = false) :
    closeLatch s = .refused (.reservedFrame 0 (Frame.addr (stage s.chain 0))) := by
  rw [closeLatch, emit_raiseLoad s hl, latch, latchChips, drive_load, execFrame_reserved _ _ _ _ h]
  rfl

/-- SETREG with an address outside the map is refused at its latch (44_chain_receiver.md R188). -/
theorem opSetReg_reserved (reg data : Byte) (s : State) (h : inMap reg = false) :
    opSetReg reg data s = .refused (.reservedFrame 0 reg) := by
  have hc : (broadcastFrames reg data positions (openLatch s)).chain
      = chainOf (frameWord reg data) (frameWord reg data) (frameWord reg data) (frameWord reg data) := by
    simp only [positions, broadcastFrames, sendFrame_eq, pushByte_chain]
  have ha : Frame.addr (stage (broadcastFrames reg data positions (openLatch s)).chain 0) = reg := by
    rw [hc, stage_chainOf_0, frame_addr]
  rw [opSetReg, closeLatch_reserved _ ?_ (by rw [ha]; exact h), ha]
  simp only [positions, broadcastFrames, sendFrame_eq, openLatch, drive_load, levelOf_false]

theorem digitAddr_inMap (col : Byte) (h : col.toNat < 8) : inMap (digitAddr col) = true := by
  have key : ∀ c : Byte, c.toNat < 8 → inMap (digitAddr c) = true := by decide
  exact key col h

/-- The frame SYNCCOL sends at a chip position. -/
def columnFrame (col : Byte) (buf : Memory) (i : Nat) : Byte × Byte := (digitAddr col, buf.read (syncIndex col i))

/-- SYNCCOL not ignored (R124 to R127). -/
theorem opSyncCol_eq (col : Byte) (s : State) (hb : s.bufOk = true) (hc : col.toNat < 8) :
    opSyncCol col s = .next (transacted (columnFrame col s.buf 0) (columnFrame col s.buf 1) (columnFrame col s.buf 2)
      (columnFrame col s.buf 3) s) := by
  have hi : syncIgnored col s = false := by simp [syncIgnored, noBuffer, colOutOfRange, hb, hc]
  have hm := digitAddr_inMap col hc
  have hr : ∀ (i : Nat) (t : State), i < 4 → t.bufOk = true → memRead (syncIndex col i) t = some (t.buf.read (syncIndex col i)) :=
    fun i t h hb => memRead_eq hb (by simp only [syncIndex]; omega)
  have hf : columnFrames col positions (openLatch s) = .next (sendFrame 3 (digitAddr col) (s.buf.read (syncIndex col 3))
      (sendFrame 2 (digitAddr col) (s.buf.read (syncIndex col 2)) (sendFrame 1 (digitAddr col) (s.buf.read (syncIndex col 1))
      (sendFrame 0 (digitAddr col) (s.buf.read (syncIndex col 0)) (openLatch s))))) := by
    simp only [positions, columnFrames]
    rw [hr 0 _ (by decide) (by exact hb)]
    simp only []
    rw [hr 1 _ (by decide) (by rw [sendFrame_eq]; exact hb)]
    simp only []
    rw [hr 2 _ (by decide) (by simp only [sendFrame_eq]; exact hb)]
    simp only []
    rw [hr 3 _ (by decide) (by simp only [sendFrame_eq]; exact hb)]
    simp only [sendFrame_eq, openLatch, drive_load]
  rw [opSyncCol, hi, hf, andThen_next]
  exact transaction_eq (columnFrame col s.buf 0) (columnFrame col s.buf 1) (columnFrame col s.buf 2) (columnFrame col s.buf 3)
    s hm hm hm hm

/-- SYNCCOL ignored (R125). -/
theorem opSyncCol_ignored (col : Byte) (s : State) (h : syncIgnored col s = true) : opSyncCol col s = .next s := by
  rw [opSyncCol, h]; rfl

/-- The same pair on every chip. -/
theorem map_eq_lit (f : ChipRegs → ChipRegs) (v : Vector ChipRegs 4) : #v[f v[0], f v[1], f v[2], f v[3]] = v.map f := by
  ext i hi
  · have : i = 0 ∨ i = 1 ∨ i = 2 ∨ i = 3 := by omega
    rcases this with rfl | rfl | rfl | rfl <;> simp

/-! ### What a transaction leaves unchanged -/

section
variable (f0 f1 f2 f3 : Byte × Byte) (s : State)
@[simp] theorem transacted_config : (transacted f0 f1 f2 f3 s).config = s.config := rfl
@[simp] theorem transacted_phase : (transacted f0 f1 f2 f3 s).phase = s.phase := rfl
@[simp] theorem transacted_bufOk : (transacted f0 f1 f2 f3 s).bufOk = s.bufOk := rfl
@[simp] theorem transacted_buf : (transacted f0 f1 f2 f3 s).buf = s.buf := rfl
@[simp] theorem transacted_isOutput : (transacted f0 f1 f2 f3 s).isOutput = s.isOutput := rfl
@[simp] theorem transacted_busy : (transacted f0 f1 f2 f3 s).busy = s.busy := rfl
@[simp] theorem transacted_seq : (transacted f0 f1 f2 f3 s).seq = s.seq + 195 := rfl
@[simp] theorem transacted_draws : (transacted f0 f1 f2 f3 s).draws = s.draws := rfl
@[simp] theorem transacted_host : (transacted f0 f1 f2 f3 s).host = s.host := rfl
@[simp] theorem transacted_log :
    (transacted f0 f1 f2 f3 s).log = (transactionEvents [f0, f1, f2, f3]).reverse ++ s.log := rfl
@[simp] theorem transacted_lines :
    (transacted f0 f1 f2 f3 s).lines = { data := levelOf (f3.2.getLsbD 0), clk := .high, load := .low } := rfl
@[simp] theorem transacted_work : (transacted f0 f1 f2 f3 s).work =
    { s.work with chipidx := 3#2, bytesel := 1#1, sr := 0#8, bitcnt := 0#3 } := rfl
@[simp] theorem transacted_chain : (transacted f0 f1 f2 f3 s).chain =
    chainOf (frameWord f0.1 f0.2) (frameWord f1.1 f1.2) (frameWord f2.1 f2.2) (frameWord f3.1 f3.2) := rfl
@[simp] theorem transacted_regs : (transacted f0 f1 f2 f3 s).regs = #v[applyFrame f3.1 f3.2 s.regs[0],
    applyFrame f2.1 f2.2 s.regs[1], applyFrame f1.1 f1.2 s.regs[2], applyFrame f0.1 f0.2 s.regs[3]] := rfl
end

end Sys2Proof.Machine
end

