-- ==== Sys2Proof/Laws/Buffer.lean ====
section
/-! SUPPORT. BUFPIX, WRITE and CLEAR as steps of an operation, and a command from its guard to its end, each said
once. -/

namespace Sys2Proof.Machine

/-! ### The mapper -/

theorem coordOutOfRange_false {x y : Byte} : coordOutOfRange x y = false ↔ x.toNat < 8 ∧ y.toNat < 32 := by
  simp [coordOutOfRange, Config.numChips]

/-- A valid coordinate maps inside the buffer (20_memory.md R54). -/
theorem index_lt {x y : Byte} (h : coordOutOfRange x y = false) : index x y < 32 := by
  have := coordOutOfRange_false.mp h
  simp only [index]; omega

/-! ### Operations -/

/-- BUFPIX not ignored (42_buffer_mapper.md R140): one byte of the buffer changes, and nothing else. -/
theorem opBufPix_eq (x y v : Byte) (s : State) (hb : s.bufOk = true) (hc : coordOutOfRange x y = false) :
    opBufPix x y v s =
      .next { s with buf := s.buf.write (index x y) (pixelByte (s.buf.read (index x y)) (mask y) v) } := by
  have hi : pixelIgnored x y s = false := by simp [pixelIgnored, noBuffer, hb, hc]
  simp [opBufPix, hi, memRead_eq hb (index_lt hc), memWrite_eq _ hb (index_lt hc)]

theorem opBufPix_ignored (x y v : Byte) (s : State) (h : pixelIgnored x y s = true) : opBufPix x y v s = .next s := by
  rw [opBufPix, h]; rfl

/-- WRITE not ignored is BUFPIX, then SYNCCOL (R143, R95). -/
theorem opWrite_eq (x y v : Byte) (s : State) (h : pixelIgnored x y s = false) :
    opWrite x y v s = andThen (opBufPix x y v s) (opSyncCol x) := by
  rw [opWrite, h]; rfl

theorem opWrite_ignored (x y v : Byte) (s : State) (h : pixelIgnored x y s = true) : opWrite x y v s = .next s := by
  rw [opWrite, h]; rfl

theorem opClear_ignored (s : State) (h : s.bufOk = false) : opClear s = .next s := by
  simp [opClear, clearIgnored, noBuffer, h, ignore]

/-- The state after SYNCCOL of one column of an empty buffer. -/
def darkColumn (col : Byte) (s : State) : State :=
  transacted (digitAddr col, 0x00#8) (digitAddr col, 0x00#8) (digitAddr col, 0x00#8) (digitAddr col, 0x00#8)
    { s with work := { s.work with colidx := col.setWidth 3 } }

section
variable (col : Byte) (s : State)
theorem darkColumn_config : (darkColumn col s).config = s.config := rfl
theorem darkColumn_phase : (darkColumn col s).phase = s.phase := rfl
theorem darkColumn_bufOk : (darkColumn col s).bufOk = s.bufOk := rfl
theorem darkColumn_buf : (darkColumn col s).buf = s.buf := rfl
theorem darkColumn_isOutput : (darkColumn col s).isOutput = s.isOutput := rfl
theorem darkColumn_lines : (darkColumn col s).lines = { data := .low, clk := .high, load := .low } := by
  simp [darkColumn]
theorem darkColumn_busy : (darkColumn col s).busy = s.busy := rfl
theorem darkColumn_seq : (darkColumn col s).seq = s.seq + 195 := rfl
theorem darkColumn_work : (darkColumn col s).work = { s.work with chipidx := 3#2, bytesel := 1#1, sr := 0#8, bitcnt := 0#3, colidx := col.setWidth 3 } := rfl
theorem darkColumn_log : (darkColumn col s).log = (transactionEvents (columnPairs col [])).reverse ++ s.log := rfl
theorem darkColumn_chain : (darkColumn col s).chain = chainOf (frameWord (digitAddr col) 0x00#8) (frameWord (digitAddr col) 0x00#8)
    (frameWord (digitAddr col) 0x00#8) (frameWord (digitAddr col) 0x00#8) := rfl
theorem darkColumn_regs : (darkColumn col s).regs = s.regs.map (applyFrame (digitAddr col) 0x00#8) :=
  map_eq_lit _ s.regs
theorem darkColumn_draws : (darkColumn col s).draws = s.draws := rfl
theorem darkColumn_host : (darkColumn col s).host = s.host := rfl
end

theorem syncColumns_cons_zero (col : Byte) (cs : List Byte) (s : State) (hb : s.bufOk = true) (hz : s.buf = [])
    (hc : col.toNat < 8) : syncColumns (col :: cs) s = syncColumns cs (darkColumn col s) := by
  rw [syncColumns, opSyncCol_eq _ _ (by exact hb) hc, andThen_next]
  simp only [columnFrame, hz, Memory.read_nil, darkColumn]

/-- SYNCCOL of columns of an empty buffer, one after another. -/
theorem syncColumns_fold (cs : List Byte) (hc : ∀ c ∈ cs, c.toNat < 8) (s : State) (hb : s.bufOk = true) (hz : s.buf = []) :
    syncColumns cs s = .next (cs.foldl (fun t c => darkColumn c t) s) := by
  induction cs generalizing s with
  | nil => rfl
  | cons c cs ih =>
    rw [syncColumns_cons_zero c cs s hb hz (hc c (by simp))]
    exact ih (fun c h => hc c (by simp [h])) _ (by rw [darkColumn_bufOk, hb]) (by rw [darkColumn_buf, hz])

/-- The eight SYNCCOL of an empty buffer (R146). -/
theorem syncColumns_zero (s : State) (hb : s.bufOk = true) (hz : s.buf = []) :
    syncColumns columns s = .next { s with
      work := { s.work with sr := 0#8, bitcnt := 0#3, bytesel := 1#1, chipidx := 3#2, colidx := 7#3 }
      log := clearEvents.reverse ++ s.log
      seq := s.seq + 1560
      lines := { data := .low, clk := .high, load := .low }
      chain := chainOf 0x0100#16 0x0100#16 0x0100#16 0x0100#16
      regs := s.regs.map darkRegs } := by
  rw [syncColumns_fold columns (by decide) s hb hz]
  refine congrArg Host.Outcome.next ?_
  simp only [columns, List.foldl_cons, List.foldl_nil]
  apply State.eq_of_fields
  case h9 => simp only [darkColumn_log, clearEvents, columns, List.flatMap_cons, List.flatMap_nil, List.reverse_append,
    List.append_assoc, List.append_nil]
  case h11 =>
    simp only [darkColumn_regs, Vector.map_map]
    refine congrArg (fun f => s.regs.map f) (funext fun r => ?_)
    simp only [Function.comp_apply, applyFrame_column, darkRegs]
  all_goals simp only [darkColumn_config, darkColumn_phase, darkColumn_bufOk, darkColumn_buf, darkColumn_isOutput,
    darkColumn_busy, darkColumn_draws, darkColumn_host, darkColumn_lines, darkColumn_seq, darkColumn_work, darkColumn_chain]
  all_goals rfl

/-- CLEAR not ignored (R146). -/
theorem opClear_eq (s : State) (hb : s.bufOk = true) (hw : s.buf.wf = true) :
    opClear s = .next { s with
      buf := []
      work := { s.work with sr := 0#8, bitcnt := 0#3, bytesel := 1#1, chipidx := 3#2, colidx := 7#3 }
      log := clearEvents.reverse ++ s.log
      seq := s.seq + 1560
      lines := { data := .low, clk := .high, load := .low }
      chain := chainOf 0x0100#16 0x0100#16 0x0100#16 0x0100#16
      regs := s.regs.map darkRegs } := by
  have hi : clearIgnored s = false := by simp [clearIgnored, noBuffer, hb]
  have hz := zeroFill_eq s hb hw
  simp only [opClear, hi, hz, andThen_next]
  exact syncColumns_zero { s with buf := [] } hb rfl

/-! ### A command -/

/-- A command that is accepted runs its operation from acceptance to its end. -/
theorem command_eq (legal : Phase) (ign : State → Bool) (op : State → Result) (s : State) (hs : Idle s)
    (hp : s.phase = legal) (hi : ign s = false) :
    command legal ign op s = andThen (op (accept s)) (fun t => .next (finish t)) := by
  simp [command, hs.1, hs.2.2, hp, hi, perform]

/-- A command that is accepted completes when its operation does. -/
theorem command_completes {legal : Phase} {ign : State → Bool} {op : State → Result} {s u : State} (hs : Idle s)
    (hp : s.phase = legal) (hi : ign s = false) (hu : op (accept s) = .next u) :
    command legal ign op s = .next (finish u) := by
  rw [command_eq legal ign op s hs hp hi, hu, andThen_next]

/-- A command whose ignore condition holds changes nothing (60_exceptions.md R200). -/
theorem command_ignored (legal : Phase) (ign : State → Bool) (op : State → Result) (s : State) (hs : Idle s)
    (hp : s.phase = legal) (hi : ign s = true) : command legal ign op s = .next s := by
  simp [command, hs.1, hs.2.2, hp, hi, ignore]

/-- A command offered to an idle block whose pins are not distinct is refused, whatever it is (93 U13; log 3). -/
theorem command_equalPins (legal : Phase) (ign : State → Bool) (op : State → Result) (s : State) (hb : s.busy = false)
    (hd : pinsDistinct s.config = false) : command legal ign op s = .refused .equalPins := by
  simp [command, hb, hd]

/-- The pins are not distinct when two identifiers are equal, and only then (00_scope.md R6). -/
theorem pinsDistinct_false {c : Config.Params} :
    pinsDistinct c = false ↔ c.pins.data = c.pins.clk ∨ c.pins.data = c.pins.load ∨ c.pins.clk = c.pins.load := by
  simp only [pinsDistinct, Bool.and_eq_false_iff, bne_eq_false_iff_eq, or_assoc]

/-- What a command can answer, said once: with what `command` adds around its operation. -/
theorem command_next {legal : Phase} {ign : State → Bool} {op : State → Result} {s t : State}
    (h : command legal ign op s = .next t) :
    (s.busy = true ∧ t = s)
    ∨ (s.busy = false ∧ pinsDistinct s.config = true ∧ s.phase = legal ∧ ign s = true ∧ t = s)
    ∨ (s.busy = false ∧ pinsDistinct s.config = true ∧ s.phase = legal ∧ ign s = false ∧
        ∃ u, op (accept s) = .next u ∧ t = finish u) := by
  unfold command at h
  cases hb : s.busy
  · rw [hb] at h
    cases hd : pinsDistinct s.config
    · simp [hd] at h
    · by_cases hp : s.phase = legal
      · cases hi : ign s
        · simp only [hd, hp, hi, perform] at h
          obtain ⟨u, hu, he⟩ := andThen_eq_next (by simpa using h)
          right; right
          exact ⟨rfl, rfl, hp, rfl, u, hu, by cases he; rfl⟩
        · simp [hd, hp, hi, ignore] at h
          right; left
          exact ⟨rfl, rfl, hp, rfl, h.symm⟩
      · simp [hd, hp] at h
  · simp [hb] at h
    exact .inl ⟨rfl, h.symm⟩

end Sys2Proof.Machine
end

