-- ==== Sys2Proof/Laws/Init.lean ====
section
/-! SUPPORT. INIT as a step of an operation, said once for each value of ALLOC_OK. -/

namespace Sys2Proof.Machine

open Sys2Proof.Config (Params)

/-- The five configuration writes (R160, R161), from any state. -/
theorem setRegs_eq (c : Params) (s : State) :
    setRegs 0 (configWrites c) s = .next { s with
      work := { s.work with sr := 0#8, bitcnt := 0#3, bytesel := 1#1, chipidx := 3#2, cfgidx := 4#3 }
      log := (configEvents c).reverse ++ s.log
      seq := s.seq + 975
      lines := { data := .low, clk := .high, load := .low }
      chain := chainOf 0x0F00#16 0x0F00#16 0x0F00#16 0x0F00#16
      regs := s.regs.map (configuredRegs c) } := by
  simp only [configWrites]
  iterate 5 rw [setRegs, opSetReg_eq _ _ _ (by decide), andThen_next]
  rw [setRegs]
  refine congrArg Host.Outcome.next ?_
  apply State.eq_of_fields
  case h9 => simp only [transacted_log, configEvents, configWrites, broadcastPairs, positions, List.flatMap_cons,
    List.flatMap_nil, List.map_cons, List.map_nil, List.reverse_append, List.append_assoc, List.append_nil]
  case h11 =>
    simp only [transacted_regs, map_eq_lit, Vector.map_map]
    rfl
  all_goals simp only [transacted_config, transacted_phase, transacted_bufOk, transacted_buf, transacted_isOutput,
    transacted_lines, transacted_busy, transacted_seq, transacted_work, transacted_chain, transacted_draws,
    transacted_host]
  all_goals rfl

/-- INIT with ALLOC_OK true (R160, R165): none of it depends on the lines or the cascade before. -/
theorem opInit_allocated (s : State) (ha : s.config.allocOk = true) : opInit s = .next { s with
    phase := .ready
    bufOk := true
    buf := []
    isOutput := { data := true, clk := true, load := true }
    work := { s.work with sr := 0#8, bitcnt := 0#3, bytesel := 1#1, chipidx := 3#2, colidx := 7#3, cfgidx := 4#3 }
    log := (initEvents s.config).reverse ++ s.log
    seq := s.seq + 2538
    lines := { data := .low, clk := .high, load := .low }
    chain := chainOf 0x0F00#16 0x0F00#16 0x0F00#16 0x0F00#16
    regs := (s.regs.map darkRegs).map (configuredRegs s.config) } := by
  have hb : (allocate (configureLines s)).bufOk = true := ha
  have h1 : allocateAndZero (configureLines s) = .next (allocate (configureLines s)) :=
    (if_pos hb).trans (zeroFill_eq _ hb rfl)
  rw [opInit, h1, andThen_next, opClear_eq _ hb rfl, andThen_next, setRegs_eq, andThen_next]
  refine congrArg Host.Outcome.next ?_
  apply State.eq_of_fields
  case h2 => exact ha
  case h4 => simp [configureLines, pinSet]
  case h9 => simp only [initEvents, ha, if_true, List.reverse_append, List.append_assoc]; rfl
  all_goals simp [configureLines]

/-- INIT with ALLOC_OK false (R163). -/
theorem opInit_unallocated (s : State) (ha : s.config.allocOk = false) : opInit s = .next { s with
    phase := .ready
    bufOk := false
    buf := []
    isOutput := { data := true, clk := true, load := true }
    work := { s.work with sr := 0#8, bitcnt := 0#3, bytesel := 1#1, chipidx := 3#2, cfgidx := 4#3 }
    log := (initEvents s.config).reverse ++ s.log
    seq := s.seq + 978
    lines := { data := .low, clk := .high, load := .low }
    chain := chainOf 0x0F00#16 0x0F00#16 0x0F00#16 0x0F00#16
    regs := s.regs.map (configuredRegs s.config) } := by
  have hb : (allocate (configureLines s)).bufOk = false := ha
  have h1 : allocateAndZero (configureLines s) = .next (allocate (configureLines s)) :=
    if_neg (by rw [hb]; decide)
  rw [opInit, h1, andThen_next, opClear_ignored _ hb, andThen_next, setRegs_eq, andThen_next]
  refine congrArg Host.Outcome.next ?_
  apply State.eq_of_fields
  case h2 => exact ha
  case h4 => simp [configureLines, pinSet]
  case h9 => simp only [initEvents, ha, Bool.false_eq_true, if_false, List.nil_append, List.reverse_append,
    List.append_assoc]; rfl
  all_goals simp [configureLines]

end Sys2Proof.Machine
end

