-- ==== Sys2Proof/Laws/Exec.lean ====
section
/-! SUPPORT. What an instruction and a step can do when they answer a next state, said once: every invariant and
frame is read off these cases. -/

namespace Sys2Proof.Machine

/-- The block's state outside the lines, the trace and the sequencer's own registers is the same. -/
structure SameBlock (s t : State) : Prop where
  config : t.config = s.config
  phase : t.phase = s.phase
  bufOk : t.bufOk = s.bufOk
  buf : t.buf = s.buf
  isOutput : t.isOutput = s.isOutput
  busy : t.busy = s.busy
  draws : t.draws = s.draws
  host : t.host = s.host

theorem SameBlock.refl (s : State) : SameBlock s s := ⟨rfl, rfl, rfl, rfl, rfl, rfl, rfl, rfl⟩

theorem SameBlock.trans {s t u : State} (h : SameBlock s t) (g : SameBlock t u) : SameBlock s u :=
  ⟨g.config.trans h.config, g.phase.trans h.phase, g.bufOk.trans h.bufOk, g.buf.trans h.buf,
    g.isOutput.trans h.isOutput, g.busy.trans h.busy, g.draws.trans h.draws, g.host.trans h.host⟩

theorem SameBlock.transacted (f0 f1 f2 f3 : Byte × Byte) (s : State) : SameBlock s (transacted f0 f1 f2 f3 s) :=
  ⟨rfl, rfl, rfl, rfl, rfl, rfl, rfl, rfl⟩

/-- The state a transaction leaves: the lines idle (41_register_protocol.md R129). -/
def LinesIdle (s : State) : Prop := s.lines.clk = .high ∧ s.lines.load = .low ∧ s.lines.data ≠ .undriven

theorem linesIdle_transacted (f0 f1 f2 f3 : Byte × Byte) (s : State) : LinesIdle (transacted f0 f1 f2 f3 s) :=
  ⟨rfl, rfl, levelOf_ne_undriven _⟩

/-- SYNCCOL of valid columns completes; it changes the lines, the trace and the cascade only. -/
theorem syncColumns_completes (cs : List Byte) (hc : ∀ c ∈ cs, c.toNat < 8) (s : State) (hb : s.bufOk = true) :
    ∃ u, syncColumns cs s = .next u ∧ SameBlock s u ∧ (cs ≠ [] → LinesIdle u) := by
  induction cs generalizing s with
  | nil => exact ⟨s, rfl, .refl s, fun h => absurd rfl h⟩
  | cons c cs ih =>
    rw [syncColumns, opSyncCol_eq c _ (by exact hb) (hc c (by simp)), andThen_next]
    have h1 : SameBlock s (Machine.transacted (columnFrame c s.buf 0) (columnFrame c s.buf 1) (columnFrame c s.buf 2)
        (columnFrame c s.buf 3) { s with work := { s.work with colidx := c.setWidth 3 } }) :=
      ⟨rfl, rfl, rfl, rfl, rfl, rfl, rfl, rfl⟩
    obtain ⟨u, hu, hs, hl⟩ := ih (fun c h => hc c (by simp [h])) _ (h1.bufOk.trans hb)
    refine ⟨u, hu, h1.trans hs, fun _ => ?_⟩
    cases cs with
    | nil => cases hu; exact linesIdle_transacted _ _ _ _ _
    | cons => exact hl (by simp)

/-- CLEAR completes with a buffer; outside the buffer it changes the lines, the trace and the cascade only. -/
theorem opClear_completes (s : State) (hb : s.bufOk = true) :
    ∃ (m : Memory) (u : State), opClear s = .next u ∧ SameBlock { s with buf := m } u ∧ LinesIdle u := by
  obtain ⟨m, hm⟩ := zeroFill_completes s hb
  obtain ⟨u, hu, hs, hl⟩ := syncColumns_completes columns (by decide) { s with buf := m } hb
  refine ⟨m, u, ?_, hs, hl (by decide)⟩
  have hi : clearIgnored s = false := by simp [clearIgnored, noBuffer, hb]
  simp only [opClear, hi, hm, andThen_next, hu]
  rfl

/-- What an instruction can do when it answers a next state. -/
inductive Effect (s : State) : Instr → State → Prop where
  /-- Nothing: an ignored command, an offer while busy, a NOOP. -/
  | nothing (i : Instr) : Effect s i s
  /-- A frame stores a byte in a register of the chip that holds it. -/
  | stored (i : Instr) (k : Nat) (h : k < 4) (a : RegAddr) (v : Byte) (hk : i.chip? = some k) :
      Effect s i { s with regs := s.regs.set k (s.regs[k].write a v) }
  | sentByte (v : Byte) (hp : s.phase = .ready) : Effect s (.sendbyte v) (finish (opSendByte v (accept s)))
  | setReg (r d : Byte) (hp : s.phase = .ready) (hm : inMap r = true) :
      Effect s (.setreg r d) (finish (transacted (r, d) (r, d) (r, d) (r, d) (accept s)))
  | syncCol (c : Byte) (hp : s.phase = .ready) (hb : s.bufOk = true) (hc : c.toNat < 8) :
      Effect s (.synccol c) (finish (transacted (columnFrame c s.buf 0) (columnFrame c s.buf 1) (columnFrame c s.buf 2)
        (columnFrame c s.buf 3) (accept s)))
  | bufPix (x y v : Byte) (hp : s.phase = .ready) (hb : s.bufOk = true) (hc : coordOutOfRange x y = false) (m : Memory)
      (hm : m = s.buf.write (index x y) (pixelByte (s.buf.read (index x y)) (mask y) v)) :
      Effect s (.bufpix x y v) (finish { accept s with buf := m })
  | wrote (x y v : Byte) (hp : s.phase = .ready) (hb : s.bufOk = true) (hc : coordOutOfRange x y = false) (m : Memory)
      (hm : m = s.buf.write (index x y) (pixelByte (s.buf.read (index x y)) (mask y) v)) :
      Effect s (.write x y v) (finish (transacted (columnFrame x m 0) (columnFrame x m 1) (columnFrame x m 2)
        (columnFrame x m 3) { accept s with buf := m }))
  | cleared (hp : s.phase = .ready) (hb : s.bufOk = true) (m : Memory) (u : State) (hu : opClear (accept s) = .next u)
      (hs : SameBlock { accept s with buf := m } u) (hl : LinesIdle u) : Effect s .clear (finish u)
  | initialised (hp : s.phase = .preInit) (u : State) (hu : opInit (accept s) = .next u) : Effect s .init (finish u)

/-- WRITE as one transaction over the changed buffer (42_buffer_mapper.md R143). -/
theorem opWrite_transacted (x y v : Byte) (s : State) (hb : s.bufOk = true) (hc : coordOutOfRange x y = false) (m : Memory)
    (hm : m = s.buf.write (index x y) (pixelByte (s.buf.read (index x y)) (mask y) v)) :
    opWrite x y v s = .next (transacted (columnFrame x m 0) (columnFrame x m 1) (columnFrame x m 2) (columnFrame x m 3)
      { s with buf := m }) := by
  have hi : pixelIgnored x y s = false := by simp [pixelIgnored, noBuffer, hb, hc]
  rw [opWrite_eq x y v s hi, opBufPix_eq x y v s hb hc, andThen_next, ← hm,
    opSyncCol_eq x { s with buf := m } hb (coordOutOfRange_false.mp hc).1]

theorem stored_effect {i : Instr} {k : Nat} {a : RegAddr} {v : Byte} {s t : State} (hk : i.chip? = some k)
    (h : storeReg k a v s = .next t) : Effect s i t := by
  unfold storeReg at h
  split at h
  · next hlt => cases h; exact .stored i k hlt a v hk
  · cases h

theorem exec_effect {i : Instr} {s t : State} (h : exec i s = .next t) : Effect s i t := by
  cases i with
  | init =>
    obtain ⟨_, rfl⟩ | ⟨_, _, _, _, rfl⟩ | ⟨_, _, hp, _, u, hu, rfl⟩ := command_next h
    · exact .nothing _
    · exact .nothing _
    · exact .initialised hp u hu
  | write x y v =>
    obtain ⟨_, rfl⟩ | ⟨_, _, _, _, rfl⟩ | ⟨_, _, hp, hi, u, hu, rfl⟩ := command_next h
    · exact .nothing _
    · exact .nothing _
    · obtain ⟨hb, hc⟩ : s.bufOk = true ∧ coordOutOfRange x y = false := by simpa [pixelIgnored, noBuffer] using hi
      rw [opWrite_transacted x y v (accept s) hb hc _ rfl] at hu
      cases hu
      exact .wrote x y v hp hb hc _ rfl
  | clear =>
    obtain ⟨_, rfl⟩ | ⟨_, _, _, _, rfl⟩ | ⟨_, _, hp, hi, u, hu, rfl⟩ := command_next h
    · exact .nothing _
    · exact .nothing _
    · have hb : s.bufOk = true := by simpa [clearIgnored, noBuffer] using hi
      obtain ⟨m, u', hu', hs, hl⟩ := opClear_completes (accept s) hb
      obtain rfl : u' = u := by rw [hu'] at hu; cases hu; rfl
      exact .cleared hp hb m u' hu' hs hl
  | bufpix x y v =>
    obtain ⟨_, rfl⟩ | ⟨_, _, _, _, rfl⟩ | ⟨_, _, hp, hi, u, hu, rfl⟩ := command_next h
    · exact .nothing _
    · exact .nothing _
    · obtain ⟨hb, hc⟩ : s.bufOk = true ∧ coordOutOfRange x y = false := by simpa [pixelIgnored, noBuffer] using hi
      rw [opBufPix_eq x y v (accept s) hb hc] at hu
      cases hu
      exact .bufPix x y v hp hb hc _ rfl
  | synccol c =>
    obtain ⟨_, rfl⟩ | ⟨_, _, _, _, rfl⟩ | ⟨_, _, hp, hi, u, hu, rfl⟩ := command_next h
    · exact .nothing _
    · exact .nothing _
    · obtain ⟨hb, hc⟩ : s.bufOk = true ∧ c.toNat < 8 := by simpa [syncIgnored, noBuffer, colOutOfRange] using hi
      rw [opSyncCol_eq c (accept s) hb hc] at hu
      cases hu
      exact .syncCol c hp hb hc
  | setreg r d =>
    obtain ⟨_, rfl⟩ | ⟨_, _, _, _, rfl⟩ | ⟨_, _, hp, hi, u, hu, rfl⟩ := command_next h
    · exact .nothing _
    · exact .nothing _
    · cases hm : inMap r
      · rw [opSetReg_reserved r d (accept s) hm] at hu; cases hu
      · rw [opSetReg_eq r d (accept s) hm] at hu; cases hu
        exact .setReg r d hp hm
  | sendbyte v =>
    obtain ⟨_, rfl⟩ | ⟨_, _, _, _, rfl⟩ | ⟨_, _, hp, hi, u, hu, rfl⟩ := command_next h
    · exact .nothing _
    · exact .nothing _
    · cases hu; exact .sentByte v hp
  | noop k d =>
    simp only [exec, execNoop] at h
    split at h
    · cases h; exact .nothing _
    · cases h
  | digit1 k d => exact stored_effect (k := k) rfl h
  | digit2 k d => exact stored_effect (k := k) rfl h
  | digit3 k d => exact stored_effect (k := k) rfl h
  | digit4 k d => exact stored_effect (k := k) rfl h
  | digit5 k d => exact stored_effect (k := k) rfl h
  | digit6 k d => exact stored_effect (k := k) rfl h
  | digit7 k d => exact stored_effect (k := k) rfl h
  | digit8 k d => exact stored_effect (k := k) rfl h
  | decode k d => exact stored_effect (k := k) rfl h
  | intensity k d => exact stored_effect (k := k) rfl h
  | scanlimit k d => exact stored_effect (k := k) rfl h
  | shutdown k d => exact stored_effect (k := k) rfl h
  | disptest k d => exact stored_effect (k := k) rfl h

/-! ### The commands in phase Ready that are not ignored, each with the state it leaves -/

theorem exec_sendbyte {s : State} (hs : Ready s) (v : Byte) :
    exec (.sendbyte v) s = .next (finish (opSendByte v (accept s))) :=
  command_completes hs.1 hs.2 rfl rfl

theorem exec_setreg {s : State} (hs : Ready s) {r : Byte} (d : Byte) (hm : inMap r = true) :
    exec (.setreg r d) s = .next (finish (transacted (r, d) (r, d) (r, d) (r, d) (accept s))) :=
  command_completes hs.1 hs.2 rfl (opSetReg_eq r d (accept s) hm)

theorem exec_setreg_reserved {s : State} (hs : Ready s) {r : Byte} (d : Byte) (hm : inMap r = false) :
    exec (.setreg r d) s = .refused (.reservedFrame 0 r) := by
  show command _ _ _ s = _
  rw [command_eq _ _ _ s hs.1 hs.2 rfl, opSetReg_reserved r d (accept s) hm]
  rfl

theorem exec_synccol {s : State} (hs : Ready s) (hb : s.bufOk = true) {c : Byte} (hc : c.toNat < 8) :
    exec (.synccol c) s = .next (finish (transacted (columnFrame c s.buf 0) (columnFrame c s.buf 1)
      (columnFrame c s.buf 2) (columnFrame c s.buf 3) (accept s))) :=
  command_completes hs.1 hs.2 (by simp [syncIgnored, noBuffer, colOutOfRange, hb, hc]) (opSyncCol_eq c (accept s) hb hc)

theorem exec_bufpix {s : State} (hs : Ready s) (hb : s.bufOk = true) {x y : Byte} (v : Byte)
    (hc : coordOutOfRange x y = false) : exec (.bufpix x y v) s = .next (finish { accept s with
      buf := s.buf.write (index x y) (pixelByte (s.buf.read (index x y)) (mask y) v) }) :=
  command_completes hs.1 hs.2 (by simp [pixelIgnored, noBuffer, hb, hc]) (opBufPix_eq x y v (accept s) hb hc)

theorem exec_write {s : State} (hs : Ready s) (hb : s.bufOk = true) {x y : Byte} (v : Byte)
    (hc : coordOutOfRange x y = false) (m : Memory)
    (hm : m = s.buf.write (index x y) (pixelByte (s.buf.read (index x y)) (mask y) v)) :
    exec (.write x y v) s = .next (finish (transacted (columnFrame x m 0) (columnFrame x m 1) (columnFrame x m 2)
      (columnFrame x m 3) { accept s with buf := m })) :=
  command_completes hs.1 hs.2 (by simp [pixelIgnored, noBuffer, hb, hc]) (opWrite_transacted x y v (accept s) hb hc m hm)

theorem exec_pixel_ignored {s : State} (hs : Ready s) {x y : Byte} (v : Byte) (hi : pixelIgnored x y s = true) :
    exec (.write x y v) s = .next s ∧ exec (.bufpix x y v) s = .next s :=
  ⟨command_ignored _ _ _ s hs.1 hs.2 hi, command_ignored _ _ _ s hs.1 hs.2 hi⟩

theorem exec_synccol_ignored {s : State} (hs : Ready s) {c : Byte} (hi : syncIgnored c s = true) :
    exec (.synccol c) s = .next s := command_ignored _ _ _ s hs.1 hs.2 hi

theorem exec_clear_ignored {s : State} (hs : Ready s) (hi : s.bufOk = false) : exec .clear s = .next s :=
  command_ignored _ _ _ s hs.1 hs.2 (by simp [clearIgnored, noBuffer, hi])

theorem exec_clear {s : State} (hs : Ready s) (hb : s.bufOk = true) (hw : s.buf.wf = true) :
    exec .clear s = .next { s with
      buf := []
      work := Config.freeWork s.draws
      draws := s.draws + 1
      log := clearEvents.reverse ++ s.log
      lines := { data := .low, clk := .high, load := .low }
      chain := chainOf 0x0100#16 0x0100#16 0x0100#16 0x0100#16
      regs := s.regs.map darkRegs } := by
  obtain ⟨⟨h1, h2, h3⟩, hp⟩ := hs
  refine (command_completes ⟨h1, h2, h3⟩ hp (by simp [clearIgnored, noBuffer, hb]) (opClear_eq (accept s) hb hw)).trans ?_
  simp only [finish, accept, h1, h2]

/-- INIT with ALLOC_OK true (43_init_sequence.md R160). -/
theorem exec_init_allocated {s : State} (hs : Fresh s) (ha : s.config.allocOk = true) :
    exec .init s = .next { s with
      phase := .ready
      bufOk := true
      buf := []
      isOutput := { data := true, clk := true, load := true }
      work := Config.freeWork s.draws
      draws := s.draws + 1
      log := (initEvents s.config).reverse ++ s.log
      lines := { data := .low, clk := .high, load := .low }
      chain := chainOf 0x0F00#16 0x0F00#16 0x0F00#16 0x0F00#16
      regs := (s.regs.map darkRegs).map (configuredRegs s.config) } := by
  obtain ⟨⟨h1, h2, h3⟩, hp⟩ := hs
  refine (command_completes ⟨h1, h2, h3⟩ hp rfl (opInit_allocated (accept s) ha)).trans ?_
  simp only [finish, accept, h1, h2]

/-- INIT with ALLOC_OK false (R163). -/
theorem exec_init_unallocated {s : State} (hs : Fresh s) (ha : s.config.allocOk = false) :
    exec .init s = .next { s with
      phase := .ready
      bufOk := false
      buf := []
      isOutput := { data := true, clk := true, load := true }
      work := Config.freeWork s.draws
      draws := s.draws + 1
      log := (initEvents s.config).reverse ++ s.log
      lines := { data := .low, clk := .high, load := .low }
      chain := chainOf 0x0F00#16 0x0F00#16 0x0F00#16 0x0F00#16
      regs := s.regs.map (configuredRegs s.config) } := by
  obtain ⟨⟨h1, h2, h3⟩, hp⟩ := hs
  refine (command_completes ⟨h1, h2, h3⟩ hp rfl (opInit_unallocated (accept s) ha)).trans ?_
  simp only [finish, accept, h1, h2]

/-- A frame that stores ends in a next state, or in the fault of a chip that is not there. -/
theorem exec_ready_frame {k : Nat} {a : RegAddr} {v : Byte} (s : State) :
    (∃ t, storeReg k a v s = .next t) ∨ storeReg k a v s = .fault (.noSuchChip k) := by
  unfold storeReg
  split
  · exact .inl ⟨_, rfl⟩
  · exact .inr rfl

/-- In phase Ready every command but INIT, and every frame, ends in a next state, but for two stops: a frame of a chip
that is not there, and a reserved address. -/
theorem exec_ready {s : State} (hs : Ready s) (i : Instr) (hn : i ≠ .init) :
    (∃ t, exec i s = .next t) ∨ (∃ k, i.chip? = some k ∧ exec i s = .fault (.noSuchChip k)) ∨
    (∃ r d, i = .setreg r d ∧ inMap r = false ∧ exec i s = .refused (.reservedFrame 0 r)) := by
  have hf : ∀ (k : Nat) (a : RegAddr) (v : Byte), i.chip? = some k → exec i s = storeReg k a v s →
      (∃ t, exec i s = .next t) ∨ (∃ k, i.chip? = some k ∧ exec i s = .fault (.noSuchChip k)) ∨
      (∃ r d, i = .setreg r d ∧ inMap r = false ∧ exec i s = .refused (.reservedFrame 0 r)) := by
    intro k a v hk he
    rw [he]
    rcases exec_ready_frame (k := k) (a := a) (v := v) s with h | h
    · exact .inl h
    · exact .inr (.inl ⟨k, hk, h⟩)
  cases i with
  | init => exact absurd rfl hn
  | write x y v =>
    left
    cases hg : pixelIgnored x y s
    · obtain ⟨hb, hc⟩ : s.bufOk = true ∧ coordOutOfRange x y = false := by simpa [pixelIgnored, noBuffer] using hg
      exact ⟨_, exec_write hs hb v hc _ rfl⟩
    · exact ⟨s, (exec_pixel_ignored hs v hg).1⟩
  | clear =>
    left
    cases hb : s.bufOk
    · exact ⟨s, exec_clear_ignored hs hb⟩
    · obtain ⟨m, u, hu, -, -⟩ := opClear_completes (accept s) hb
      exact ⟨_, command_completes hs.1 hs.2 (by simp [clearIgnored, noBuffer, hb]) hu⟩
  | bufpix x y v =>
    left
    cases hg : pixelIgnored x y s
    · obtain ⟨hb, hc⟩ : s.bufOk = true ∧ coordOutOfRange x y = false := by simpa [pixelIgnored, noBuffer] using hg
      exact ⟨_, exec_bufpix hs hb v hc⟩
    · exact ⟨s, (exec_pixel_ignored hs v hg).2⟩
  | synccol c =>
    left
    cases hg : syncIgnored c s
    · obtain ⟨hb, hc⟩ : s.bufOk = true ∧ c.toNat < 8 := by simpa [syncIgnored, noBuffer, colOutOfRange] using hg
      exact ⟨_, exec_synccol hs hb hc⟩
    · exact ⟨s, exec_synccol_ignored hs hg⟩
  | setreg r d =>
    cases hm : inMap r
    · exact .inr (.inr ⟨r, d, rfl, hm, exec_setreg_reserved hs d hm⟩)
    · exact .inl ⟨_, exec_setreg hs d hm⟩
  | sendbyte v => exact .inl ⟨_, exec_sendbyte hs v⟩
  | noop k d =>
    by_cases h : k < 4
    · exact .inl ⟨s, by simp [exec, execNoop, h]⟩
    · exact .inr (.inl ⟨k, rfl, by simp [exec, execNoop, h]⟩)
  | digit1 k d => exact hf k _ d rfl rfl
  | digit2 k d => exact hf k _ d rfl rfl
  | digit3 k d => exact hf k _ d rfl rfl
  | digit4 k d => exact hf k _ d rfl rfl
  | digit5 k d => exact hf k _ d rfl rfl
  | digit6 k d => exact hf k _ d rfl rfl
  | digit7 k d => exact hf k _ d rfl rfl
  | digit8 k d => exact hf k _ d rfl rfl
  | decode k d => exact hf k _ d rfl rfl
  | intensity k d => exact hf k _ d rfl rfl
  | scanlimit k d => exact hf k _ d rfl rfl
  | shutdown k d => exact hf k _ d rfl rfl
  | disptest k d => exact hf k _ d rfl rfl

/-- What a step can do when it answers a next state: nothing is offered; the block is reset; or the offered word
decodes and its instruction is executed. -/
theorem step_next {s t : State} (h : step s = .next t) :
    (s.host = [] ∧ t = s) ∨
    (∃ rest, s.host = .reset :: rest ∧ t = resetBlock { s with host := rest }) ∨
    (∃ cw rest i, s.host = .command cw :: rest ∧ decode s.config.exposeInternal (.command cw) = .ok i ∧
      exec i { s with host := rest } = .next t) ∨
    (∃ k rest i, s.host = .chipLatch k :: rest ∧ decode s.config.exposeInternal (.frame k (stage s.chain k)) = .ok i ∧
      exec i { s with host := rest } = .next t) := by
  unfold step serve at h
  split at h
  · next e => left; cases h; exact ⟨e, rfl⟩
  · next cw rest e =>
    right; right; left
    simp only [runWord] at h
    split at h
    · next i hd => exact ⟨cw, rest, i, e, hd, h⟩
    · cases h
  · next k rest e =>
    right; right; right
    simp only [runWord] at h
    split at h
    · next i hd => exact ⟨k, rest, i, e, hd, h⟩
    · cases h
  · next rest e => right; left; cases h; exact ⟨rest, e, rfl⟩

end Sys2Proof.Machine
end

