-- ==== Sys2Proof/Laws/Registers.lean ====
section
/-! SUPPORT. Chip registers read by address: after a write, after a frame of the map, after a transaction. -/

namespace Sys2Proof.Machine

theorem ChipRegs.read_write (r : ChipRegs) (a b : RegAddr) (v : Byte) :
    (r.write a v).read b = if b = a then v else r.read b := by
  cases a <;> cases b <;> rfl

theorem RegAddr.ofCode_code (a : RegAddr) : RegAddr.ofCode a.code = some a := by cases a <;> rfl

theorem RegAddr.code_of_ofCode {c : Byte} {a : RegAddr} (h : RegAddr.ofCode c = some a) : c = a.code := by
  have key : ∀ c : Byte, ((RegAddr.ofCode c).all fun a => c == a.code) = true := by decide
  simpa [h] using key c

theorem regAt_eq {s : State} {k : Nat} (h : k < 4) (c : Byte) :
    regAt s k c = (RegAddr.ofCode c).map (fun a => s.regs[k].read a) := by
  simp [regAt, h]

/-- A register file after a frame, read by address. -/
theorem applyFrame_read (c d : Byte) (r : ChipRegs) (c' : Byte) :
    (RegAddr.ofCode c').map (fun a => (applyFrame c d r).read a) =
      (RegAddr.ofCode c').map (fun a => if c' = c then d else r.read a) := by
  cases h' : RegAddr.ofCode c' with
  | none => rfl
  | some a' =>
    simp only [Option.map_some, applyFrame]
    cases h : RegAddr.ofCode c with
    | none =>
      have : c' ≠ c := by rintro rfl; rw [h] at h'; cases h'
      simp [this]
    | some a =>
      simp only [ChipRegs.read_write]
      by_cases e : c' = c
      · subst e; rw [h] at h'; cases h'; simp
      · have : a' ≠ a := by
          rintro rfl
          exact e ((RegAddr.code_of_ofCode h').trans (RegAddr.code_of_ofCode h).symm)
        simp [e, this]

/-- A chip's register after it executed a frame, read by address. -/
theorem regAt_applied {s t : State} {k : Nat} (h : k < 4) {c d : Byte} (e : t.regs[k] = applyFrame c d s.regs[k])
    (c' : Byte) : regAt t k c' = if c' = c then (RegAddr.ofCode c).map (fun _ => d) else regAt s k c' := by
  rw [regAt_eq h, regAt_eq h, e, applyFrame_read]
  split
  · next h => subst h; rfl
  · rfl

/-- The digit address of a valid column is a storing register's (10_state.md R32). -/
theorem ofCode_digitAddr {col : Byte} (h : col.toNat < 8) : (RegAddr.ofCode (digitAddr col)).isSome = true := by
  have key : ∀ c : Byte, c.toNat < 8 → (RegAddr.ofCode (digitAddr c)).isSome = true := by decide
  exact key col h

theorem map_const_some {α β : Type} {o : Option α} (h : o.isSome = true) (b : β) : o.map (fun _ => b) = some b := by
  cases o with
  | none => cases h
  | some a => rfl

/-- A digit register of a chip that received a column's frame. -/
theorem regAt_column {s t : State} {k : Nat} (h : k < 4) {col d : Byte} (hc : col.toNat < 8)
    (e : t.regs[k] = applyFrame (digitAddr col) d s.regs[k]) (c' : Byte) :
    regAt t k c' = if c' = digitAddr col then some d else regAt s k c' := by
  rw [regAt_applied h e, map_const_some (ofCode_digitAddr hc)]

theorem digitAddr_inj {c d : Byte} (h : digitAddr c = digitAddr d) : c = d := by
  simp only [digitAddr] at h
  bv_omega

section
variable (f0 f1 f2 f3 : Byte × Byte) (s : State)
theorem transacted_reg0 : (transacted f0 f1 f2 f3 s).regs[0] = applyFrame f3.1 f3.2 s.regs[0] := rfl
theorem transacted_reg1 : (transacted f0 f1 f2 f3 s).regs[1] = applyFrame f2.1 f2.2 s.regs[1] := rfl
theorem transacted_reg2 : (transacted f0 f1 f2 f3 s).regs[2] = applyFrame f1.1 f1.2 s.regs[2] := rfl
theorem transacted_reg3 : (transacted f0 f1 f2 f3 s).regs[3] = applyFrame f0.1 f0.2 s.regs[3] := rfl
end

/-- The digit registers of a cleared register file read zero. -/
theorem darkRegs_digit (r : ChipRegs) {c : Byte} (h : 1 ≤ c.toNat) (h' : c.toNat ≤ 8) :
    (RegAddr.ofCode c).map (fun a => (darkRegs r).read a) = some 0#8 := by
  have key : ∀ c : Byte, 1 ≤ c.toNat → c.toNat ≤ 8 → c = 1#8 ∨ c = 2#8 ∨ c = 3#8 ∨ c = 4#8 ∨ c = 5#8 ∨ c = 6#8 ∨
      c = 7#8 ∨ c = 8#8 := by decide
  rcases key c h h' with rfl | rfl | rfl | rfl | rfl | rfl | rfl | rfl <;> rfl

/-- The other registers of a cleared register file read as before. -/
theorem darkRegs_other (r : ChipRegs) {c : Byte} (h : 8 < c.toNat) :
    (RegAddr.ofCode c).map (fun a => (darkRegs r).read a) = (RegAddr.ofCode c).map (fun a => r.read a) := by
  have key : ∀ c : Byte, 8 < c.toNat → RegAddr.ofCode c = none ∨ RegAddr.ofCode c = some .decode ∨
      RegAddr.ofCode c = some .intensity ∨ RegAddr.ofCode c = some .scanLimit ∨ RegAddr.ofCode c = some .shutdown ∨
      RegAddr.ofCode c = some .dispTest := by decide
  rcases key c h with h | h | h | h | h | h <;> rw [h] <;> rfl

/-- INIT's configuration writes leave the digit registers. -/
theorem configuredRegs_digit (p : Config.Params) (r : ChipRegs) {c : Byte} (h : 1 ≤ c.toNat) (h' : c.toNat ≤ 8) :
    (RegAddr.ofCode c).map (fun a => (configuredRegs p r).read a) = (RegAddr.ofCode c).map (fun a => r.read a) := by
  have key : ∀ c : Byte, 1 ≤ c.toNat → c.toNat ≤ 8 → c = 1#8 ∨ c = 2#8 ∨ c = 3#8 ∨ c = 4#8 ∨ c = 5#8 ∨ c = 6#8 ∨
      c = 7#8 ∨ c = 8#8 := by decide
  rcases key c h h' with rfl | rfl | rfl | rfl | rfl | rfl | rfl | rfl <;> rfl

/-- What holds of each chip holds of every chip of the cascade. -/
theorem forall_chip {P : (k : Nat) → k < 4 → Prop} (h0 : P 0 (by decide)) (h1 : P 1 (by decide)) (h2 : P 2 (by decide))
    (h3 : P 3 (by decide)) (k : Nat) (h : k < 4) : P k h := by
  have : k = 0 ∨ k = 1 ∨ k = 2 ∨ k = 3 := by omega
  rcases this with rfl | rfl | rfl | rfl <;> assumption

/-- Each chip after SYNCCOL's transaction (41_register_protocol.md R127). -/
theorem transacted_column_reg (col : Byte) (m : Memory) (s : State) (k : Nat) (h : k < 4) :
    (transacted (columnFrame col m 0) (columnFrame col m 1) (columnFrame col m 2) (columnFrame col m 3) s).regs[k] =
      applyFrame (digitAddr col) (m.read (syncIndex col (3 - k))) s.regs[k] :=
  forall_chip (P := fun k _ => (transacted (columnFrame col m 0) (columnFrame col m 1) (columnFrame col m 2)
    (columnFrame col m 3) s).regs[k] = applyFrame (digitAddr col) (m.read (syncIndex col (3 - k))) s.regs[k])
    rfl rfl rfl rfl k h

/-- Each chip after SETREG's transaction (R122). -/
theorem transacted_broadcast_reg (f : Byte × Byte) (s : State) (k : Nat) (h : k < 4) :
    (transacted f f f f s).regs[k] = applyFrame f.1 f.2 s.regs[k] :=
  forall_chip (P := fun k _ => (transacted f f f f s).regs[k] = applyFrame f.1 f.2 s.regs[k]) rfl rfl rfl rfl k h

end Sys2Proof.Machine
end

