-- ==== Sys2Proof/Laws/Pixels.lean ====
section
/-! SUPPORT. Pixels of the buffer: reading one after BUFPIX's byte, and that equal pixels are equal buffers. -/

namespace Sys2Proof.Machine

theorem mask_bit (y : Byte) (i : Nat) (h : i < 8) : (mask y).getLsbD i = decide (i = bitpos y) := by
  have key : ∀ y : Byte, ∀ i, i < 8 → (mask y).getLsbD i = decide (i = bitpos y) := by decide
  exact key y i h

/-- The bits of a byte with one pixel set or cleared (42_buffer_mapper.md R140). -/
theorem pixelByte_bit (b v y : Byte) (i : Nat) (hi : i < 8) :
    (pixelByte b (mask y) v).getLsbD i = if i = bitpos y then decide (v ≠ 0#8) else b.getLsbD i := by
  have hm := mask_bit y i hi
  unfold pixelByte
  by_cases h : v = 0#8
  · simp only [h, ne_eq, not_true_eq_false, if_false, BitVec.getLsbD_and, BitVec.getLsbD_not, hm, hi]
    by_cases h2 : i = bitpos y <;> simp [h2]
  · simp only [h, ne_eq, not_false_eq_true, if_true, BitVec.getLsbD_or, hm]
    by_cases h2 : i = bitpos y <;> simp [h2]

theorem bitpos_lt (y : Byte) : bitpos y < 8 := by simp only [bitpos]; omega

/-- Valid coordinates with the same index and bit position are the same (20_memory.md R54). -/
theorem pixel_inj {x y x' y' : Byte} (h : ValidPixel x y) (h' : ValidPixel x' y') (hi : index x y = index x' y')
    (hb : bitpos y = bitpos y') : x = x' ∧ y = y' := by
  obtain ⟨hx, hy⟩ := h
  obtain ⟨hx', hy'⟩ := h'
  simp only [index, bitpos] at hi hb
  constructor <;> apply BitVec.eq_of_toNat_eq <;> omega

/-- Every bit of the buffer is a valid coordinate's (R54). -/
theorem pixel_surj {i b : Nat} (hi : i < 32) (hb : b < 8) : ∃ x y : Byte, ValidPixel x y ∧ index x y = i ∧ bitpos y = b := by
  refine ⟨BitVec.ofNat 8 (i % 8), BitVec.ofNat 8 (8 * (i / 8) + (7 - b)), ?_, ?_, ?_⟩
  all_goals simp only [ValidPixel, index, bitpos, BitVec.toNat_ofNat]; omega

/-- A pixel after the byte of a pixel is written (R142). -/
theorem pixelBit_write {m : Memory} (hw : m.wf = true) {x y x' y' : Byte} (v : Byte) (h : ValidPixel x y)
    (h' : ValidPixel x' y') : pixelBit (m.write (index x y) (pixelByte (m.read (index x y)) (mask y) v)) x' y' =
      if x' = x ∧ y' = y then decide (v ≠ 0#8) else pixelBit m x' y' := by
  simp only [pixelBit]
  rw [Memory.read_write hw]
  by_cases hi : index x' y' = index x y
  · rw [if_pos hi, pixelByte_bit _ _ _ _ (bitpos_lt y')]
    by_cases hb : bitpos y' = bitpos y
    · obtain ⟨rfl, rfl⟩ := pixel_inj h' h hi hb
      simp
    · have : ¬ (x' = x ∧ y' = y) := by rintro ⟨rfl, rfl⟩; exact hb rfl
      rw [if_neg hb, if_neg this, hi]
  · have : ¬ (x' = x ∧ y' = y) := by rintro ⟨rfl, rfl⟩; exact hi rfl
    rw [if_neg hi, if_neg this]

/-- Buffers in canonical form with the same pixels are the same. -/
theorem Memory.ext_pixels {m m' : Memory} (hw : m.wf = true) (hw' : m'.wf = true)
    (h : ∀ x y, ValidPixel x y → pixelBit m x y = pixelBit m' x y) : m = m' := by
  apply Memory.ext hw hw'
  intro i
  by_cases hi : i < 32
  · apply BitVec.eq_of_getLsbD_eq
    intro j hj
    obtain ⟨x, y, hv, hxi, hb⟩ := pixel_surj hi hj
    have := h x y hv
    simpa [pixelBit, hxi, hb] using this
  · rw [Memory.read_outside hw (by simp only [Config.bufLen]; omega),
      Memory.read_outside hw' (by simp only [Config.bufLen]; omega)]

end Sys2Proof.Machine
end

