-- ==== Sys2Proof/Laws/Emit.lean ====
section
/-! SUPPORT. What lists of events do to the lines and the cascade: a byte's, a frame's, a transaction's
(20_memory.md R65). -/

namespace Sys2Proof.Machine

theorem emitAll_append (a b : List Event) (s : State) : emitAll (a ++ b) s = andThen (emitAll a s) (emitAll b) := by
  induction a generalizing s with
  | nil => rfl
  | cons e a ih => simp only [List.cons_append, emitAll]; cases emit e s <;> simp [ih]

/-- Two states agree on everything the events of a trace make. -/
structure SameOutside (s t : State) : Prop where
  lines : s.lines = t.lines
  isOutput : s.isOutput = t.isOutput
  chain : s.chain = t.chain
  regs : s.regs = t.regs

theorem SameOutside.refl (s : State) : SameOutside s s := ⟨rfl, rfl, rfl, rfl⟩

theorem SameOutside.trans {s t u : State} (h : SameOutside s t) (g : SameOutside t u) : SameOutside s u :=
  ⟨h.lines.trans g.lines, h.isOutput.trans g.isOutput, h.chain.trans g.chain, h.regs.trans g.regs⟩

theorem emitAll_bit (v : Byte) (i : Nat) (s : State) : ∃ u, emitAll (bitEvents v i) s = .next u ∧
    u.lines = { s.lines with clk := .high, data := levelOf (v.getLsbD i) } ∧ u.isOutput = s.isOutput ∧
    u.chain = shiftIn s.chain (v.getLsbD i) ∧ u.regs = s.regs := by
  refine ⟨drive .clk true (drive .data (v.getLsbD i) (drive .clk false s)), ?_, ?_, rfl, ?_, rfl⟩
  · simp [bitEvents, emitAll, emit]
  · simp [pinSet]
  · simp [drive, isRising, pinGet, pinSet, record]

/-- The events of a byte (40_serial_link.md R110, R115). -/
theorem emitAll_byte (v : Byte) (s : State) : ∃ u, emitAll (byteEvents v) s = .next u ∧
    u.lines = { s.lines with clk := .high, data := levelOf (v.getLsbD 0) } ∧ u.isOutput = s.isOutput ∧
    u.chain = pushByte s.chain v ∧ u.regs = s.regs := by
  have hstep : ∀ (is : List Nat) (s : State), ∃ u, emitAll (is.flatMap (bitEvents v)) s = .next u ∧
      u.lines = is.foldl (fun l i => { l with clk := .high, data := levelOf (v.getLsbD i) }) s.lines ∧
      u.isOutput = s.isOutput ∧ u.chain = is.foldl (fun c i => shiftIn c (v.getLsbD i)) s.chain ∧ u.regs = s.regs := by
    intro is
    induction is with
    | nil => exact fun s => ⟨s, rfl, rfl, rfl, rfl, rfl⟩
    | cons i is ih =>
      intro s
      obtain ⟨u, h1, h2, h3, h4, h5⟩ := emitAll_bit v i s
      obtain ⟨w, g1, g2, g3, g4, g5⟩ := ih u
      refine ⟨w, ?_, ?_, g3.trans h3, ?_, g5.trans h5⟩
      · rw [List.flatMap_cons, emitAll_append, h1, andThen_next, g1]
      · rw [g2, h2, List.foldl_cons]
      · rw [g4, h4, List.foldl_cons]
  obtain ⟨u, h1, h2, h3, h4, h5⟩ := hstep [7, 6, 5, 4, 3, 2, 1, 0] s
  refine ⟨u, h1, ?_, h3, ?_, h5⟩
  · simpa only [List.foldl_cons, List.foldl_nil] using h2
  · rw [h4, ← shiftIn_byte s.chain v]
    simp only [List.foldl_cons, List.foldl_nil]

/-- The lines after a list of frames, and the chain. -/
def frameLines (l : Config.PerPin Level) : List (Byte × Byte) → Config.PerPin Level
  | [] => l
  | f :: fs => frameLines { l with clk := .high, data := levelOf (f.2.getLsbD 0) } fs

def frameChain (c : ChainWord) : List (Byte × Byte) → ChainWord
  | [] => c
  | f :: fs => frameChain (pushByte (pushByte c f.1) f.2) fs

/-- The events of a list of frames (R58). -/
theorem emitAll_frames (fs : List (Byte × Byte)) (s : State) : ∃ u, emitAll (fs.flatMap frameEvents) s = .next u ∧
    u.lines = frameLines s.lines fs ∧ u.isOutput = s.isOutput ∧ u.chain = frameChain s.chain fs ∧ u.regs = s.regs := by
  induction fs generalizing s with
  | nil => exact ⟨s, rfl, rfl, rfl, rfl, rfl⟩
  | cons f fs ih =>
    obtain ⟨u, h1, h2, h3, h4, h5⟩ := emitAll_byte f.1 s
    obtain ⟨u', k1, k2, k3, k4, k5⟩ := emitAll_byte f.2 u
    obtain ⟨w, g1, g2, g3, g4, g5⟩ := ih u'
    refine ⟨w, ?_, ?_, (g3.trans k3).trans h3, ?_, (g5.trans k5).trans h5⟩
    · rw [List.flatMap_cons, emitAll_append, frameEvents, emitAll_append, h1, andThen_next, k1, andThen_next, g1]
    · rw [g2, k2, h2, frameLines]
    · rw [g4, k4, h4, frameChain]

/-- The events of a transaction whose addresses are in the map (41_register_protocol.md R120 to R122). -/
theorem emitAll_transaction (f0 f1 f2 f3 : Byte × Byte) (s : State) (h0 : inMap f0.1 = true) (h1 : inMap f1.1 = true)
    (h2 : inMap f2.1 = true) (h3 : inMap f3.1 = true) :
    ∃ u, emitAll (transactionEvents [f0, f1, f2, f3]) s = .next u ∧ SameOutside u (transacted f0 f1 f2 f3 s) := by
  obtain ⟨u, e1, e2, e3, e4, e5⟩ := emitAll_frames [f0, f1, f2, f3] (drive .load false s)
  have hd : ∀ t : State, emit (.setLine .load false) t = .next (drive .load false t) :=
    fun t => emit_eq_drive _ _ _ (.inr (by simp [isRising]))
  have hc : u.chain = chainOf (frameWord f0.1 f0.2) (frameWord f1.1 f1.2) (frameWord f2.1 f2.2) (frameWord f3.1 f3.2) := by
    rw [e4]
    exact pushByte_chain ..
  have hl : u.lines = { data := levelOf (f3.2.getLsbD 0), clk := .high, load := .low } := by
    rw [e2]
    rfl
  have he : emitAll (transactionEvents [f0, f1, f2, f3]) s = closeLatch u := by
    rw [transactionEvents, emitAll, hd, andThen_next, emitAll_append, e1, andThen_next, closeLatch, emitAll]
    simp only [emitAll, hd, andThen_next]
  have hcl := closeLatch_eq u (by rw [hl]) f0 f1 f2 f3 hc h0 h1 h2 h3
  refine ⟨_, he.trans hcl, hl, e3, hc, ?_⟩
  simp only [e5, drive_regs, transacted_regs]

/-! ### The edges of a byte's events (40_serial_link.md R111) -/

theorem byteEvents_risingEdges (v : Byte) (l : Config.PerPin Level) : risingEdges .clk l (byteEvents v) = 8 := by
  simp [byteEvents, bitEvents, risingEdges, pinSet, pinGet]

theorem byteEvents_fallingEdges (v : Byte) (l : Config.PerPin Level) :
    fallingEdges .clk l (byteEvents v) = if l.clk = .high then 8 else 7 := by
  obtain ⟨d, c, ld⟩ := l
  cases c <;> simp [byteEvents, bitEvents, fallingEdges, pinSet, pinGet]

/-- The load line's level is not seen in the transitions of a byte. -/
theorem byteEvents_transitions_load (v : Byte) (d c e : Level) :
    transitions { data := d, clk := c, load := e } (byteEvents v) =
      transitions { data := d, clk := c, load := .low } (byteEvents v) := by
  simp [byteEvents, bitEvents, transitions, pinGet, pinSet]

end Sys2Proof.Machine
end

