-- ==== Sys2Proof/Laws/PerInstr.lean ====
section
/-! SUPPORT. Encoding, instruction by instruction: decoding an encoded instruction gives it back, with every
operand at every value (30_encoding.md R82, R83, R87). -/

namespace Sys2Proof

theorem commandWord_toNat (op a b c : Byte) :
    (commandWord op a b c).toNat = 2 ^ 24 * op.toNat + 2 ^ 16 * a.toNat + 2 ^ 8 * b.toNat + c.toNat := by
  simp only [commandWord]
  rw [BitVec.toNat_append, ← Nat.shiftLeft_add_eq_or_of_lt c.isLt, BitVec.toNat_append,
    ← Nat.shiftLeft_add_eq_or_of_lt b.isLt, BitVec.toNat_append, ← Nat.shiftLeft_add_eq_or_of_lt a.isLt]
  simp only [Nat.shiftLeft_eq]
  omega

theorem commandWord_fields (op a b c : Byte) :
    CommandWord.op (commandWord op a b c) = op ∧ CommandWord.a (commandWord op a b c) = a ∧
    CommandWord.b (commandWord op a b c) = b ∧ CommandWord.c (commandWord op a b c) = c := by
  refine ⟨?_, ?_, ?_, ?_⟩ <;> apply BitVec.eq_of_toNat_eq <;>
    simp only [CommandWord.op, CommandWord.a, CommandWord.b, CommandWord.c, BitVec.extractLsb'_toNat, commandWord_toNat,
      Nat.shiftRight_eq_div_pow] <;> omega

/-- A command word is its four fields put together (R81). -/
theorem commandWord_of_fields (cw : CommandWord) :
    commandWord (CommandWord.op cw) (CommandWord.a cw) (CommandWord.b cw) (CommandWord.c cw) = cw := by
  apply BitVec.eq_of_toNat_eq
  simp only [commandWord_toNat, CommandWord.op, CommandWord.a, CommandWord.b, CommandWord.c, BitVec.extractLsb'_toNat,
    Nat.shiftRight_eq_div_pow]
  omega

/-- A frame is its two fields put together (R86). -/
theorem frameWord_of_fields (f : Frame) : frameWord (Frame.addr f) (Frame.data f) = f := by
  apply BitVec.eq_of_toNat_eq
  simp only [Machine.frameWord_toNat, Frame.addr, Frame.data, BitVec.extractLsb'_toNat, Nat.shiftRight_eq_div_pow]
  omega

end Sys2Proof

namespace Sys2Proof.Laws.Encoding

/-- Decoding the encoded instruction gives it back; without the internal operations exposed too, unless it is one. -/
def Statement (i : Instr) : Prop :=
  Sys2Proof.decode true (encode i) = .ok i ∧ (i.isInternal = false → Sys2Proof.decode false (encode i) = .ok i)

theorem init : Statement (.init) := by
  simp [Statement, Sys2Proof.decode, encode, decodeCommand, commandWord_fields, whenZero, Instr.isInternal]

theorem write (x : Byte) (y : Byte) (v : Byte) : Statement (.write x y v) := by
  simp [Statement, Sys2Proof.decode, encode, decodeCommand, commandWord_fields, Instr.isInternal]

theorem clear : Statement (.clear) := by
  simp [Statement, Sys2Proof.decode, encode, decodeCommand, commandWord_fields, whenZero, Instr.isInternal]

theorem bufpix (x : Byte) (y : Byte) (v : Byte) : Statement (.bufpix x y v) := by
  simp [Statement, Sys2Proof.decode, encode, decodeCommand, commandWord_fields, whenExposed, Instr.isInternal]

theorem synccol (col : Byte) : Statement (.synccol col) := by
  simp [Statement, Sys2Proof.decode, encode, decodeCommand, commandWord_fields, whenZero, whenExposed, Instr.isInternal]

theorem setreg (reg : Byte) (d : Byte) : Statement (.setreg reg d) := by
  simp [Statement, Sys2Proof.decode, encode, decodeCommand, commandWord_fields, whenZero, whenExposed, Instr.isInternal]

theorem sendbyte (v : Byte) : Statement (.sendbyte v) := by
  simp [Statement, Sys2Proof.decode, encode, decodeCommand, commandWord_fields, whenZero, whenExposed, Instr.isInternal]

theorem noop (k : Nat) (d : Byte) : Statement (.noop k d) := by
  simp [Statement, Sys2Proof.decode, encode, decodeFrame, Machine.frame_addr, Machine.frame_data]

theorem digit1 (k : Nat) (d : Byte) : Statement (.digit1 k d) := by
  simp [Statement, Sys2Proof.decode, encode, decodeFrame, Machine.frame_addr, Machine.frame_data]

theorem digit2 (k : Nat) (d : Byte) : Statement (.digit2 k d) := by
  simp [Statement, Sys2Proof.decode, encode, decodeFrame, Machine.frame_addr, Machine.frame_data]

theorem digit3 (k : Nat) (d : Byte) : Statement (.digit3 k d) := by
  simp [Statement, Sys2Proof.decode, encode, decodeFrame, Machine.frame_addr, Machine.frame_data]

theorem digit4 (k : Nat) (d : Byte) : Statement (.digit4 k d) := by
  simp [Statement, Sys2Proof.decode, encode, decodeFrame, Machine.frame_addr, Machine.frame_data]

theorem digit5 (k : Nat) (d : Byte) : Statement (.digit5 k d) := by
  simp [Statement, Sys2Proof.decode, encode, decodeFrame, Machine.frame_addr, Machine.frame_data]

theorem digit6 (k : Nat) (d : Byte) : Statement (.digit6 k d) := by
  simp [Statement, Sys2Proof.decode, encode, decodeFrame, Machine.frame_addr, Machine.frame_data]

theorem digit7 (k : Nat) (d : Byte) : Statement (.digit7 k d) := by
  simp [Statement, Sys2Proof.decode, encode, decodeFrame, Machine.frame_addr, Machine.frame_data]

theorem digit8 (k : Nat) (d : Byte) : Statement (.digit8 k d) := by
  simp [Statement, Sys2Proof.decode, encode, decodeFrame, Machine.frame_addr, Machine.frame_data]

theorem decode (k : Nat) (d : Byte) : Statement (.decode k d) := by
  simp [Statement, Sys2Proof.decode, encode, decodeFrame, Machine.frame_addr, Machine.frame_data]

theorem intensity (k : Nat) (d : Byte) : Statement (.intensity k d) := by
  simp [Statement, Sys2Proof.decode, encode, decodeFrame, Machine.frame_addr, Machine.frame_data]

theorem scanlimit (k : Nat) (d : Byte) : Statement (.scanlimit k d) := by
  simp [Statement, Sys2Proof.decode, encode, decodeFrame, Machine.frame_addr, Machine.frame_data]

theorem shutdown (k : Nat) (d : Byte) : Statement (.shutdown k d) := by
  simp [Statement, Sys2Proof.decode, encode, decodeFrame, Machine.frame_addr, Machine.frame_data]

theorem disptest (k : Nat) (d : Byte) : Statement (.disptest k d) := by
  simp [Statement, Sys2Proof.decode, encode, decodeFrame, Machine.frame_addr, Machine.frame_data]

end Sys2Proof.Laws.Encoding
end

