-- ==== Sys2Proof/Tests/Slice0.lean ====
section
/-! SUPPORT. Tests on fixed values, each expected result from 95_test_vectors.md (its vector is named) or from the
rule named; then, for every statement that has hypotheses, a witness that meets them. -/

namespace Sys2Proof.Tests

open Sys2Proof Sys2Proof.Machine Sys2Proof.Config

/-- The register file of section 1's `CFG` with dark digit registers. -/
def cfg : ChipRegs :=
  { digit1 := 0x00#8, digit2 := 0x00#8, digit3 := 0x00#8, digit4 := 0x00#8, digit5 := 0x00#8, digit6 := 0x00#8,
    digit7 := 0x00#8, digit8 := 0x00#8, decode := 0x00#8, intensity := 0x08#8, scanLimit := 0x07#8,
    shutdown := 0x01#8, dispTest := 0x00#8 }

/-- The Ready state of section 1. -/
def ready : State :=
  { State.reset with
    phase := .ready, bufOk := true, isOutput := { data := true, clk := true, load := true }
    lines := { data := .low, clk := .high, load := .low }, chain := 0x0F000F000F000F00#64, regs := Vector.replicate 4 cfg }

/-- The Ready state without a buffer, as after V56. -/
def unallocated : State := { ready with bufOk := false, config := { sample with allocOk := false } }

/-- The buffer column 3 of the vectors V20 to V25: bytes 3, 11, 19 and 27 of `7*i + 1`. -/
def column3 : State := { ready with buf := [(3, 0x16#8), (11, 0x4E#8), (19, 0x86#8), (27, 0xBE#8)] }

/-- Before any INIT, with a failing allocation. -/
def resetUnallocated : State := { State.reset with config := { sample with allocOk := false } }

/-- Before any INIT, with the data and load lines on one pin. -/
def samePins : State := { State.reset with config := { sample with pins := { data := 0, clk := 1, load := 0 } } }

/-- What a result's next state holds; none for a fault or a refusal. -/
def after {α : Type} (r : Result) (f : State → α) : Option α :=
  match r with
  | .next t => some (f t)
  | .fault _ => none
  | .refused _ => none

/-- Why a result is refused; none for another result. -/
def why (r : Result) : Option Refusal :=
  match r with
  | .next _ => none
  | .fault _ => none
  | .refused e => some e

/-- The trace's length, the chain and the lines. -/
def outside (s : State) : Nat × ChainWord × PerPin Level := (s.log.length, s.chain, s.lines)

/-- Register `a` of chain chips 0 to 3. -/
def chips (a : Byte) (s : State) : List (Option Byte) := [0, 1, 2, 3].map (fun k => regAt s k a)

/-! ### Well-formedness -/

/-- The one check: a frame of a chip the cascade does not have. -/
theorem test_illformed_frames : ([.noop 4 0#8, .digit1 4 0#8, .digit2 4 0#8, .digit3 4 0#8, .digit4 4 0#8, .digit5 4 0#8,
    .digit6 4 0#8, .digit7 4 0#8, .digit8 4 0#8, .decode 4 0#8, .intensity 4 0#8, .scanlimit 4 0#8, .shutdown 4 0#8,
    .disptest 4 0#8] : List Instr).all (fun i => !i.wellFormed) = true := by decide

theorem test_wellformed_boundary : Instr.wellFormed (.disptest 3 0xFF#8) = true ∧
    Instr.wellFormed (.write 0xFF#8 0xFF#8 0xFF#8) = true := by decide

/-! ### Decoding: words from the opcode maps R82 and R87 -/

theorem test_decode_commands :
    decodeTableWord 32 0b00000001000000000000000000000000 = some .init ∧
    decodeTableWord 32 0b00000010000000110001000100000001 = some (.write 3#8 17#8 1#8) ∧
    decodeTableWord 32 0b00000011000000000000000000000000 = some .clear ∧
    decodeTableWord 32 0b00010000000001110001111100000001 = some (.bufpix 7#8 31#8 1#8) ∧
    decodeTableWord 32 0b00010001000000110000000000000000 = some (.synccol 3#8) ∧
    decodeTableWord 32 0b00010010000011000000000100000000 = some (.setreg 0x0C#8 0x01#8) ∧
    decodeTableWord 32 0b00010011101001010000000000000000 = some (.sendbyte 0xA5#8) := by decide

theorem test_decode_frames :
    decodeTableWord 16 0b0000000010101011 = some (.noop 0 0xAB#8) ∧
    decodeTableWord 16 0b0000000111011010 = some (.digit1 0 0xDA#8) ∧
    decodeTableWord 16 0b0000001001010101 = some (.digit2 0 0x55#8) ∧
    decodeTableWord 16 0b0000001111111111 = some (.digit3 0 0xFF#8) ∧
    decodeTableWord 16 0b0000010000000000 = some (.digit4 0 0x00#8) ∧
    decodeTableWord 16 0b0000010101000000 = some (.digit5 0 0x40#8) ∧
    decodeTableWord 16 0b0000011000000001 = some (.digit6 0 0x01#8) ∧
    decodeTableWord 16 0b0000011110000000 = some (.digit7 0 0x80#8) ∧
    decodeTableWord 16 0b0000100010000001 = some (.digit8 0 0x81#8) ∧
    decodeTableWord 16 0b0000100100000000 = some (.decode 0 0x00#8) ∧
    decodeTableWord 16 0b0000101000001000 = some (.intensity 0 0x08#8) ∧
    decodeTableWord 16 0b0000101100000111 = some (.scanlimit 0 0x07#8) ∧
    decodeTableWord 16 0b0000110000000001 = some (.shutdown 0 0x01#8) ∧
    decodeTableWord 16 0b0000111100000000 = some (.disptest 0 0x00#8) := by decide

/-- V7, V52, V62: reserved words, an opcode in no row, and a length that is none. -/
theorem test_decode_reserved :
    [0x13A50100, 0x03000001, 0x01000001, 0x11030001, 0x12050001, 0x00000000, 0x04000000, 0x14000000, 0xFF000000].map
      (decodeTableWord 32) = List.replicate 9 none ∧
    [0x0D00, 0x0E00, 0x1000, 0x1540, 0xFF00].map (decodeTableWord 16) = List.replicate 5 none ∧
    decodeTableWord 8 0x01 = none := by decide

/-- Hidden internal operations (R85), by name. -/
theorem test_decode_hidden :
    decode false (.command 0x13A50000#32) = .error (.internalNotExposed 0x13#8) ∧
    decode false (.command 0x02031101#32) = .ok (.write 3#8 17#8 1#8) := by decide

/-! ### Commands -/

set_option maxRecDepth 20000 in
/-- V55. -/
theorem test_init : after (step (State.reset.withFetchWord 32 0x01000000)) outside =
    some (2538, 0x0F000F000F000F00#64, { data := .low, clk := .high, load := .low }) ∧
    after (step (State.reset.withFetchWord 32 0x01000000)) (fun t => t.regs) = some (Vector.replicate 4 cfg) := by
  decide +kernel

set_option maxRecDepth 20000 in
/-- V56. -/
theorem test_init_unallocated : after (exec .init resetUnallocated) outside =
    some (978, 0x0F000F000F000F00#64, { data := .low, clk := .high, load := .low }) ∧
    after (exec .init resetUnallocated) (chips 0x08#8) = some (List.replicate 4 (some 0xA5#8)) := by
  decide +kernel

/-- V44. -/
theorem test_write : after (exec (.write 3#8 17#8 1#8) ready) (fun t => (outside t, t.buf)) =
    some ((195, 0x0500050005400500#64, { data := .low, clk := .high, load := .low }), [(19, 0x40#8)]) ∧
    after (exec (.write 3#8 17#8 1#8) ready) (chips 0x05#8) = some [some 0#8, some 0x40#8, some 0#8, some 0#8] := by
  decide +kernel

/-- V48, V49, and V58 for a command before INIT. -/
theorem test_write_ignored : after (exec (.write 0#8 32#8 1#8) ready) id = some ready ∧
    after (exec (.write 3#8 17#8 1#8) unallocated) id = some unallocated ∧
    why (exec (.write 0#8 0#8 1#8) State.reset) = some .beforeInit := by decide +kernel

set_option maxRecDepth 20000 in
/-- V50. -/
theorem test_clear : after (exec .clear column3) (fun t => (outside t, t.buf)) =
    some ((1560, 0x0100010001000100#64, { data := .low, clk := .high, load := .low }), []) := by decide +kernel

/-- V51. -/
theorem test_clear_unallocated : after (exec .clear unallocated) id = some unallocated := by decide +kernel

/-- V35, V36. -/
theorem test_bufpix_set : after (exec (.bufpix 3#8 17#8 2#8) ready) (fun t => (outside t, t.buf)) =
    some ((0, 0x0F000F000F000F00#64, { data := .low, clk := .high, load := .low }), [(19, 0x40#8)]) := by decide +kernel

/-- V41; then a pixel that was the only one of its byte leaves no cell. -/
theorem test_bufpix_clear :
    after (exec (.bufpix 3#8 17#8 0#8) { ready with buf := [(19, 0xFF#8)] }) (fun t => t.buf) = some [(19, 0xBF#8)] ∧
    after (exec (.bufpix 3#8 17#8 0#8) { ready with buf := [(19, 0x40#8)] }) (fun t => t.buf) = some [] := by
  decide +kernel

/-- V21. -/
theorem test_synccol : after (exec (.synccol 3#8) column3) outside =
    some (195, 0x0516054E058605BE#64, { data := .low, clk := .high, load := .low }) ∧
    after (exec (.synccol 3#8) column3) (chips 0x05#8) = some [some 0xBE#8, some 0x86#8, some 0x4E#8, some 0x16#8] := by
  decide +kernel

/-- V23, V24, V25. -/
theorem test_synccol_ignored : after (exec (.synccol 8#8) column3) id = some column3 ∧
    after (exec (.synccol 0xFF#8) column3) id = some column3 ∧
    after (exec (.synccol 3#8) unallocated) id = some unallocated := by decide +kernel

/-- V10, V16: the same with and without a buffer. -/
theorem test_setreg : after (exec (.setreg 0x0A#8 0x0F#8) ready) outside =
    some (195, 0x0A0F0A0F0A0F0A0F#64, { data := .high, clk := .high, load := .low }) ∧
    after (exec (.setreg 0x0A#8 0x0F#8) unallocated) (chips 0x0A#8) = some (List.replicate 4 (some 0x0F#8)) := by
  decide +kernel

/-- V14. -/
theorem test_setreg_reserved : why (exec (.setreg 0x0D#8 0#8) ready) = some (.reservedFrame 0 0x0D#8) := by decide +kernel

/-- V1. -/
theorem test_sendbyte :
    after (exec (.sendbyte 0xA5#8) { ready with chain := 0xDEADBEEFCAFEF00D#64 }) outside =
      some (24, 0xADBEEFCAFEF00DA5#64, { data := .high, clk := .high, load := .low }) ∧
    (after (exec (.sendbyte 0xA5#8) ready) (fun t => t.trace.take 6)) = some [.setLine .clk false, .setLine .data true,
      .setLine .clk true, .setLine .clk false, .setLine .data false, .setLine .clk true] := by decide +kernel

/-! ### Frames: the rows of V62, each placed for the next step -/

/-- What a frame of chip 0 leaves in its register. -/
def frameStores (w : Nat) (a : Byte) : Option (Option Byte) :=
  after (step (State.reset.withFetchWord 16 w)) (fun t => regAt t 0 a)

theorem test_noop : after (step (State.reset.withFetchWord 16 0x00AB)) (fun t => t.regs) = some State.reset.regs := by
  decide +kernel

theorem test_digits :
    frameStores 0x01DA 1#8 = some (some 0xDA#8) ∧ frameStores 0x0255 2#8 = some (some 0x55#8) ∧
    frameStores 0x03FF 3#8 = some (some 0xFF#8) ∧ frameStores 0x0400 4#8 = some (some 0x00#8) ∧
    frameStores 0x0540 5#8 = some (some 0x40#8) ∧ frameStores 0x0601 6#8 = some (some 0x01#8) ∧
    frameStores 0x0780 7#8 = some (some 0x80#8) ∧ frameStores 0x0881 8#8 = some (some 0x81#8) := by decide +kernel

theorem test_controls :
    frameStores 0x0900 0x09#8 = some (some 0x00#8) ∧ frameStores 0x0A08 0x0A#8 = some (some 0x08#8) ∧
    frameStores 0x0B07 0x0B#8 = some (some 0x07#8) ∧ frameStores 0x0C01 0x0C#8 = some (some 0x01#8) ∧
    frameStores 0x0F00 0x0F#8 = some (some 0x00#8) := by decide +kernel

/-- V62, the reserved row: 0x1540 is not DIGIT5 0x40. -/
theorem test_reserved_frame :
    why (step (State.reset.withFetchWord 16 0x1540)) = some (.reservedFrame 0 0x15#8) := by decide +kernel

/-- V60. -/
theorem test_shift :
    after (emit (.setLine .clk true) { State.reset with lines := { data := .high, clk := .low, load := .low } })
      (fun t => t.chain) = some 0xBD5B7DDF95FDE01B#64 ∧
    after (emit (.setLine .clk true) { State.reset with lines := { data := .high, clk := .high, load := .low } })
      (fun t => t.chain) = some 0xDEADBEEFCAFEF00D#64 := by decide +kernel

/-- V61. -/
theorem test_latch :
    after (emit (.setLine .load true) { ready with chain := 0x0516054E058605BE#64 }) (chips 0x05#8) =
      some [some 0xBE#8, some 0x86#8, some 0x4E#8, some 0x16#8] ∧
    after (emit (.setLine .load true)
      { ready with chain := 0x0516054E058605BE#64, lines := { ready.lines with load := .high } }) (chips 0x05#8) =
      some (List.replicate 4 (some 0#8)) := by decide +kernel

/-- V64: the state after V44. -/
theorem test_lit : lit 3#8 17#8 { ready with regs := ready.regs.set 1 { cfg with digit5 := 0x40#8 } } = some true ∧
    lit 3#8 16#8 { ready with regs := ready.regs.set 1 { cfg with digit5 := 0x40#8 } } = some false ∧
    lit 3#8 17#8 { ready with regs := Vector.replicate 4 { cfg with shutdown := 0#8 } } = none := by decide

/-- R230: a reset between commands. -/
theorem test_reset_input : after (step { ready with host := [.reset] }) (fun t => (t.phase, t.bufOk, t.lines.clk, t.chain)) =
    some (.preInit, false, .undriven, 0x0F000F000F000F00#64) := by decide +kernel

/-! ### Witnesses: the hypotheses of each statement, met together; a clause each, at the ends of its range -/

theorem witness_ResetReturnsBlockToPreInit :
    ({ ready with host := [.reset] } : State).host = .reset :: ([] : List Input) ∧
    ({ ready with host := [.reset, .reset] } : State).host = .reset :: [.reset] := by decide

theorem witness_StepRunsTheDecodedWord :
    (({ ready with host := [.command 0x02031101#32] } : State).host = .command 0x02031101#32 :: ([] : List Input) ∧
      decode ready.config.exposeInternal (.command 0x02031101#32) = .ok (.write 3#8 17#8 1#8)) ∧
    (({ ready with host := [.chipLatch 3] } : State).host = .chipLatch 3 :: ([] : List Input) ∧
      decode ready.config.exposeInternal (.frame 3 (stage ready.chain 3)) = .ok (.disptest 3 0x00#8)) ∧
    (∃ e, decode ready.config.exposeInternal (.command 0x03000001#32) = .error e) ∧
    (∃ e, decode ready.config.exposeInternal (.frame 3 (stage 0x0D00000000000000#64 3)) = .error e) ∧
    ready.host = [] := ⟨by decide, by decide, ⟨_, rfl⟩, ⟨_, rfl⟩, rfl⟩

theorem witness_PlacedWordIsRunNext : State.reset.config.exposeInternal = true ∧
    decodeTableWord 32 0x02031101 = some (.write 3#8 17#8 1#8) ∧
    decodeTableWord 16 0x0F00 = some (.disptest 0 0x00#8) := by decide

theorem witness_CommandLegalityByPhase :
    (Fresh State.reset ∧ (Instr.sendbyte 0#8).isCommand = true ∧ Instr.sendbyte 0#8 ≠ .init) ∧
    (Ready ready ∧ Instr.disptest 0 0#8 ≠ .init) ∧
    (ready.phase = .ready ∧ ∃ t, exec (.sendbyte 0#8) ready = .next t) ∧
    (Instr.init.isCommand = true ∧ samePins.busy = false ∧ samePins.config.pins.data = samePins.config.pins.load) :=
  ⟨by decide, by decide, ⟨by decide, _, exec_sendbyte (by decide) 0#8⟩, by decide⟩

theorem witness_OfferWhileBusyHasNoEffect :
    ({ ready with busy := true } : State).busy = true ∧ Instr.clear.isCommand = true := by decide

theorem witness_DecodeInvertsEncode : (Instr.write 8#8 32#8 0xFF#8).isInternal = false := by decide

theorem witness_CommandDecodeFollowsOpcodeMap :
    (∃ i, decode true (.command 0x11070000#32) = .ok i) ∧
    (∃ r ∈ commandRows, 0x11070000#32 &&& r.mask = r.pattern) := by
  exact ⟨⟨.synccol 7#8, by decide⟩, by decide⟩

theorem witness_FrameDecodeFollowsOpcodeMap : decode true (.frame 3 0x0FFF#16) = .ok (.disptest 3 0xFF#8) := by decide

theorem witness_HiddenMicroOperationsAreReserved : (Instr.bufpix 0#8 0#8 0#8).isInternal = true ∧
    decode true (.command 0x03000000#32) = .ok .clear ∧ Instr.clear.isInternal = false := by decide

theorem witness_ReservedCommandWordIsRefused :
    ({ ready with host := [.command 0x03000001#32] } : State).host = .command 0x03000001#32 :: ([] : List Input) ∧
    matchesCommandRow ready.config.exposeInternal 0x03000001#32 = false := by decide

theorem witness_NoopFrameChangesNoRegister : (0 < 4 ∧ 3 < 4) ∧ Ready ready := by decide

theorem witness_DigitFramesStoreColumns :
    (Instr.digit1, RegAddr.digit1, 7#8) ∈ [(Instr.digit1, RegAddr.digit1, 7#8)] ∧ 3 < 4 ∧
    ¬ (2 = 3 ∧ 0x0F#8 = RegAddr.digit1.code) ∧ inNormalMode ready.regs[3] = true ∧
    (0#8).toNat < 32 ∧ chipOfModule (moduleOf 0#8) = 3 ∧
    (31#8).toNat < 32 ∧ chipOfModule (moduleOf 31#8) = 0 ∧ inNormalMode ready.regs[0] = true :=
  ⟨List.mem_singleton.mpr rfl, by decide⟩

theorem witness_ControlFramesStoreTheByte :
    3 < 4 ∧ ¬ (3 = 3 ∧ 0x0A#8 = RegAddr.decode.code) ∧ 0xFF#8 ≠ decodeRaw ∧ 0x06#8 ≠ scanAll ∧ 0x00#8 ≠ shutdownNormal ∧
    0x01#8 ≠ testOff ∧ chipOfModule (moduleOf 7#8) = 3 := by decide

theorem witness_ReservedFrameIsRefused :
    (0x0D#8).toNat = 0x0D ∧ (0x0E#8).toNat = 0x0E ∧ 0x10 ≤ (0x10#8).toNat ∧ 0x10 ≤ (0xFF#8).toNat ∧
    Ready ready ∧ Fresh State.reset := by decide

theorem witness_RisingClockEdgeShiftsTheChain :
    ({ ready with lines := { data := .high, clk := .low, load := .low } } : State).lines.clk = .low ∧
    ({ ready with lines := { data := .high, clk := .low, load := .low } } : State).lines.data = levelOf true := by decide

theorem witness_RisingLoadEdgeLatchesEveryChip : ready.lines.load = .low ∧
    (∀ k, k < 4 → inMap (Frame.addr (stage ready.chain k)) = true) ∧
    (∃ k, k < 4 ∧ inMap (Frame.addr (stage State.reset.chain k)) = false) :=
  ⟨by decide, by decide, 3, by decide⟩

theorem witness_OtherEventsLeaveTheCascade : pinGet ready.lines .load = levelOf false ∧
    pinGet ready.lines .clk = levelOf true := by decide

theorem witness_SendByteEdgeCounts : (Ready ready ∧ ready.lines.clk = .high) ∧
    (Ready { ready with lines := { ready.lines with clk := .low } } ∧ Level.low ≠ .high) ∧
    (Ready { ready with lines := { ready.lines with clk := .undriven } } ∧ Level.undriven ≠ .high) := by decide

theorem witness_SendByteShiftsOutTheValue : Ready ready ∧ ready.lines.load = .low := by decide

theorem witness_SetRegBroadcastsOnePair : Ready ready ∧ inMap 0x00#8 = true ∧ inMap 0x0F#8 = true ∧ 0x0F#8 ≠ 0x00#8 ∧
    0x0E#8 ≠ 0x0F#8 := by decide

theorem witness_SyncColSendsTheColumn : Ready column3 ∧ column3.bufOk = true ∧ (0#8).toNat < 8 ∧ (7#8).toNat < 8 ∧
    0x0F#8 ≠ 8#8 - 7#8 := by decide

theorem witness_ShortTransactionLeavesOldFrames : inMap 0x0C#8 = true ∧ inMap 0x00#8 = true ∧
    ∃ t, opSetReg 0x0C#8 0x01#8 ready = .next t := ⟨by decide, by decide, _, opSetReg_eq 0x0C#8 0x01#8 ready (by decide)⟩

theorem witness_StrayBytesAreFlushed : Ready ready ∧ ready.lines.load = .low ∧ ready.bufOk = true ∧ ready.buf.wf = true ∧
    ValidPixel 7#8 31#8 ∧ (∃ t, runAll ([0xFF#8].map Instr.sendbyte) ready = .next t) ∧
    ∃ u, exec (.write 7#8 31#8 1#8) ready = .next u := by
  refine ⟨by decide, by decide, by decide, by decide, by decide, ⟨finish (opSendByte 0xFF#8 (accept ready)), ?_⟩,
    _, exec_write (by decide) (by decide) 1#8 (by decide) _ rfl⟩
  exact (congrArg (fun r => andThen r (runAll [])) (exec_sendbyte (s := ready) (by decide) 0xFF#8)).trans rfl

theorem witness_MapperIsBijective : ValidPixel 0#8 0#8 ∧ ValidPixel 7#8 31#8 ∧ 0 < 32 ∧ 31 < 32 ∧ 0 ≤ 7 ∧ 7 ≤ 7 ∧
    index 7#8 31#8 = index 7#8 31#8 ∧ bitpos 31#8 = bitpos 31#8 := by decide

theorem witness_MapperArithmeticAsBits : (0#8).toNat < 8 ∧ (7#8).toNat < 8 := by decide

theorem witness_BufPixChangesOneByte : Ready column3 ∧ column3.bufOk = true ∧ column3.buf.wf = true ∧
    (7#8).toNat < 8 ∧ (31#8).toNat < 32 ∧ (0#8).toNat < 8 ∧ (0#8).toNat < 32 := by decide

theorem witness_BufPixLaws : Ready column3 ∧ column3.bufOk = true ∧ column3.buf.wf = true ∧ ValidPixel 3#8 17#8 ∧
    (∃ t, exec (.bufpix 3#8 17#8 1#8) column3 = .next t) ∧ (ValidPixel 3#8 16#8 ∧ 16#8 ≠ 17#8) ∧ 1#8 ≠ 0#8 :=
  ⟨by decide, by decide, by decide, by decide, ⟨_, exec_bufpix (by decide) (by decide) 1#8 (by decide)⟩, by decide, by decide⟩

theorem witness_WriteSetsPixelAndRepaintsColumn : Ready column3 ∧ column3.bufOk = true ∧ column3.buf.wf = true ∧
    (7#8).toNat < 8 ∧ (31#8).toNat < 32 ∧ (0#8).toNat < 8 ∧ (0#8).toNat < 32 := by decide

theorem witness_ClearZeroesBufferAndDisplay : Ready column3 ∧ column3.bufOk = true ∧ column3.buf.wf = true ∧
    1 ≤ (8#8).toNat ∧ (8#8).toNat ≤ 8 ∧ 8 < (9#8).toNat := by decide

theorem witness_ClearDarkensColumnsInOrder : column3.bufOk = true ∧ column3.buf.wf = true ∧ 8 ≤ 8 ∧ 0 ≤ 8 ∧
    7#8 ∈ columns ∧ (7#8).toNat < 8 ∧ 3 ≤ (3#8).toNat := by decide

theorem witness_OutOfRangeCoordinateIsIgnored : Ready ready ∧ 8 ≤ (8#8).toNat ∧ 8 ≤ (0xFF#8).toNat ∧
    32 ≤ (32#8).toNat ∧ 32 ≤ (0xFF#8).toNat := by decide

theorem witness_MissingBufferIsIgnored : (Ready unallocated ∧ unallocated.bufOk = false ∧ inMap 0x00#8 = true) ∧
    (Fresh resetUnallocated ∧ resetUnallocated.config.allocOk = false) ∧
    (unallocated.phase = .ready ∧ unallocated.bufOk = false ∧ ∃ t, exec (.sendbyte 0#8) unallocated = .next t) :=
  ⟨by decide, by decide, by decide, by decide, _, exec_sendbyte (by decide) 0#8⟩

theorem witness_OutOfRangeColumnIsIgnored : Ready ready ∧ 8 ≤ (8#8).toNat ∧ 8 ≤ (0xFF#8).toNat ∧
    pixelIgnored 7#8 31#8 ready = false := by decide

theorem witness_InitEstablishesTheReadyState : Fresh State.reset ∧ State.reset.config.allocOk = true ∧
    1 ≤ (8#8).toNat ∧ (8#8).toNat ≤ 8 := by decide

theorem witness_InitEventOrder : Fresh State.reset ∧ State.reset.config.allocOk = true := by decide

theorem witness_InitWithoutBufferStillConfigures : Fresh resetUnallocated ∧ resetUnallocated.config.allocOk = false ∧
    1 ≤ (8#8).toNat ∧ (8#8).toNat ≤ 8 := by decide

theorem witness_EventCountsOfTheOperations :
    (Ready ready ∧ inMap 0x0F#8 = true ∧ (7#8).toNat < 8 ∧ ready.bufOk = true ∧ ValidPixel 7#8 31#8 ∧ ready.buf.wf = true) ∧
    (Fresh State.reset ∧ State.reset.config.allocOk = true) ∧
    (Fresh resetUnallocated ∧ resetUnallocated.config.allocOk = false) := by decide

theorem witness_CascadeFollowsTheTrace : (Instr.sendbyte 0xA5#8).isCommand = true ∧ Idle ready ∧
    ∃ t, exec (.sendbyte 0xA5#8) ready = .next t := ⟨by decide, by decide, _, exec_sendbyte (by decide) 0xA5#8⟩

theorem witness_NoInstructionFaults : (Instr.disptest 3 0#8).wellFormed = true ∧
    ({ ready with host := [.chipLatch 3] } : State).host = .chipLatch 3 :: ([] : List Input) ∧ 3 < 4 := by decide

/-- A state whose next step performs a command. -/
def offered : State := { ready with host := [.command 0x13A50000#32] }

theorem offered_steps : ∃ t, step offered = .next t :=
  ⟨_, exec_sendbyte (s := ready) (by decide) 0xA5#8⟩

theorem witness_NoStepChangesTheConfiguration : ∃ t, step offered = .next t := offered_steps

theorem witness_OnlyInitAndResetChangeTheFlag : (∃ t, exec .init State.reset = .next t) ∧
    ∃ t, step { ready with host := [.reset] } = .next t ∧ ready.phase = .ready ∧ t.phase = .preInit :=
  ⟨⟨_, exec_init_allocated (by decide) (by decide)⟩, _, rfl, rfl, rfl⟩

theorem witness_OnlyBufferCommandsChangeTheBuffer :
    (∃ t, exec (.bufpix 3#8 17#8 1#8) ready = .next t ∧ t.buf ≠ ready.buf) ∧
    (Instr.digit5 3 0x40#8).chip? = some 3 ∧ (∃ t, exec (.digit5 3 0x40#8) ready = .next t) ∧ (0 : Nat) ≠ 3 :=
  ⟨⟨_, exec_bufpix (by decide) (by decide) 1#8 (by decide), by decide⟩, by decide, ⟨_, rfl⟩, by decide⟩

theorem ready_inv : BlockInv ready :=
  ⟨by decide, by decide, by decide, by decide, by decide⟩

theorem witness_EveryStepKeepsTheInvariant : BlockInv offered ∧ ∃ t, step offered = .next t :=
  ⟨⟨by decide, by decide, by decide, by decide, by decide⟩, offered_steps⟩

theorem witness_LoadLineIsLowBetweenCommands : BlockInv ready ∧ ready.phase = .ready ∧
    ∃ t, exec (.sendbyte 0#8) ready = .next t := ⟨ready_inv, rfl, _, exec_sendbyte (by decide) 0#8⟩

theorem witness_PublicCommandsKeepTheMirror : Ready ready ∧ ready.bufOk = true ∧ ready.buf.wf = true ∧ (7#8).toNat < 8 ∧
    mirrored 7#8 ready ∧ (∃ t, exec (PublicOp.write 7#8 31#8 1#8).instr ready = .next t) ∧
    ∃ t, exec PublicOp.clear.instr ready = .next t := by
  refine ⟨by decide, by decide, by decide, by decide, ?_, ⟨_, exec_write (by decide) (by decide) 1#8 (by decide) _ rfl⟩, _,
    exec_clear (by decide) (by decide) (by decide)⟩
  unfold mirrored
  decide

theorem witness_SyncColRestoresTheMirror : Ready ready ∧ ready.bufOk = true ∧ ready.buf.wf = true ∧ (7#8).toNat < 8 ∧
    mirrored 7#8 ready ∧ (7#8 ≠ 3#8 ∧ ∃ t, exec (.bufpix 3#8 17#8 1#8) ready = .next t) ∧
    (5#8 ≠ 8#8 - 7#8 ∧ ∃ t, exec (.setreg 5#8 0x81#8) ready = .next t) ∧ ∃ t, exec (.synccol 7#8) ready = .next t := by
  refine ⟨by decide, by decide, by decide, by decide, ?_, ⟨by decide, _, exec_bufpix (by decide) (by decide) 1#8 (by decide)⟩,
    ⟨by decide, _, exec_setreg (by decide) 0x81#8 (by decide)⟩, _, exec_synccol (by decide) (by decide) (by decide)⟩
  unfold mirrored
  decide

theorem witness_SyncColAndClearAreIdempotent :
    (Ready column3 ∧ ∃ t, exec (.synccol 3#8) column3 = .next t ∧ ∃ u, exec (.synccol 3#8) t = .next u) ∧
    (Ready column3 ∧ column3.buf.wf = true ∧ ∃ t, exec .clear column3 = .next t ∧ ∃ u, exec .clear t = .next u) :=
  ⟨⟨by decide, _, exec_synccol (by decide) (by decide) (by decide), _,
      exec_synccol ⟨⟨rfl, rfl, rfl⟩, rfl⟩ rfl (by decide)⟩,
    by decide, by decide, _, exec_clear (by decide) (by decide) (by decide), _, exec_clear ⟨⟨rfl, rfl, rfl⟩, rfl⟩ rfl rfl⟩

theorem witness_DisplayShowsTheDigitRegisters : ValidPixel 0#8 0#8 ∧ ValidPixel 7#8 31#8 ∧
    inNormalMode ready.regs[3 - (31#8).toNat / 8] = true ∧ mirrored 7#8 ready ∧
    inNormalMode State.reset.regs[3 - (0#8).toNat / 8] = false := by
  unfold mirrored
  decide

theorem witness_DisplayShowsTheLastWrite : Fresh State.reset ∧ State.reset.config.allocOk = true ∧ ValidPixel 7#8 31#8 := by
  decide

theorem witness_BareWritesBreakTheMirror : (Ready ready ∧ ready.bufOk = true ∧ ready.buf.wf = true ∧ (7#8).toNat < 8) ∧
    ((31#8).toNat < 32 ∧ mirrored 7#8 ready ∧ pixelBit ready.buf 7#8 31#8 ≠ decide (1#8 ≠ 0#8)) ∧
    3 < 4 ∧ 0x81#8 ≠ ready.buf.read ((7#8).toNat + 8 * 3) := by
  refine ⟨by decide, ⟨by decide, ?_, by decide⟩, by decide, by decide⟩
  unfold mirrored
  decide

end Sys2Proof.Tests
end

/-! SUPPORT. The state of the block over instructions and steps (10_state.md R20 to R35): what an instruction leaves
of it, said once, then the invariant, the configuration, the flag and the buffer. -/

namespace Sys2Proof.Machine

open Sys2Proof.Config (Params WorkRegs)

/-! ### What the operations leave of the block -/

/-- SENDBYTE (40_serial_link.md R110) touches no state of the block but the lines and the sequencer. -/
theorem SameBlock.opSendByte (v : Byte) (s : State) : SameBlock s (opSendByte v s) := by
  rw [opSendByte_eq]
  exact ⟨rfl, rfl, rfl, rfl, rfl, rfl, rfl, rfl⟩

theorem linesIdle_opSendByte (v : Byte) {s : State} (h : LinesIdle s) : LinesIdle (opSendByte v s) := by
  obtain ⟨-, hload, -⟩ := h
  rw [opSendByte_eq]
  exact ⟨rfl, hload, levelOf_ne_undriven _⟩

/-- The buffer CLEAR leaves is canonical when the one before was. -/
theorem opClear_keeps_wf {s u : State} (hu : opClear s = .next u) (hb : s.bufOk = true) (hw : s.buf.wf = true) :
    u.buf.wf = true := by
  rw [opClear_eq s hb hw] at hu
  cases hu
  rfl

/-- What INIT's operation establishes from an accepted `s`, whatever ALLOC_OK is (43_init_sequence.md R163, R165). -/
structure InitDone (s u : State) : Prop where
  config : u.config = s.config
  phase : u.phase = .ready
  bufOk : u.bufOk = s.config.allocOk
  buf : u.buf = []
  isOutput : u.isOutput = { data := true, clk := true, load := true }
  lines : LinesIdle u

theorem initDone_of_opInit {s u : State} (hu : opInit (accept s) = .next u) : InitDone s u := by
  cases ha : s.config.allocOk
  · rw [opInit_unallocated (accept s) ha] at hu
    cases hu
    exact ⟨rfl, rfl, ha.symm, rfl, rfl, rfl, rfl, nofun⟩
  · rw [opInit_allocated (accept s) ha] at hu
    cases hu
    exact ⟨rfl, rfl, ha.symm, rfl, rfl, rfl, rfl, nofun⟩

/-! ### What an instruction leaves of the block -/

/-- `Effect` as the block's state sees it: the chips' registers alone change, a command other than INIT is performed
over the buffer `m` it leaves, or INIT is. -/
inductive BlockEffect (s : State) (i : Instr) : State → Prop where
  | chipsOnly (r : Vector ChipRegs 4) : BlockEffect s i { s with regs := r }
  | performed (hp : s.phase = .ready) (m : Memory) (u : State) (hs : SameBlock { accept s with buf := m } u)
      (hw : s.buf.wf = true → m.wf = true) (ha : s.bufOk = false → m = s.buf) (hl : LinesIdle s → LinesIdle u) :
      BlockEffect s i (finish u)
  | initialised (hi : i = .init) (hp : s.phase = .preInit) (u : State) (hu : InitDone s u) : BlockEffect s i (finish u)

/-- A command that leaves the buffer alone. -/
theorem BlockEffect.sameBuffer {s u : State} {i : Instr} (hp : s.phase = .ready) (hs : SameBlock (accept s) u)
    (hl : LinesIdle s → LinesIdle u) : BlockEffect s i (finish u) :=
  .performed hp s.buf u hs id (fun _ => rfl) hl

theorem Effect.blockEffect {s t : State} {i : Instr} (h : Effect s i t) : BlockEffect s i t := by
  have keepsAbsent : s.bufOk = true → ∀ m : Memory, s.bufOk = false → m = s.buf :=
    fun hb _ hb' => by simp [hb] at hb'
  have keepsWf : ∀ {x y : Byte} (b : Byte), coordOutOfRange x y = false → s.buf.wf = true →
      (s.buf.write (index x y) b).wf = true := fun b hc hw => Memory.wf_write hw b (index_lt hc)
  cases h with
  | nothing => exact .chipsOnly s.regs
  | stored => exact .chipsOnly _
  | sentByte v hp => exact .sameBuffer hp (.opSendByte v _) (linesIdle_opSendByte v)
  | setReg r d hp => exact .sameBuffer hp (.transacted ..) fun _ => linesIdle_transacted ..
  | syncCol c hp => exact .sameBuffer hp (.transacted ..) fun _ => linesIdle_transacted ..
  | bufPix x y v hp hb hc m hm =>
    subst hm
    exact .performed hp _ _ (.refl _) (keepsWf _ hc) (keepsAbsent hb _) id
  | wrote x y v hp hb hc m hm =>
    subst hm
    exact .performed hp _ _ (.transacted ..) (keepsWf _ hc) (keepsAbsent hb _) fun _ => linesIdle_transacted ..
  | cleared hp hb m u hu hs hl =>
    refine .performed hp m u hs (fun hw => ?_) (keepsAbsent hb m) fun _ => hl
    have hbuf : u.buf = m := hs.buf
    exact hbuf ▸ opClear_keeps_wf hu hb hw
  | initialised hp u hu => exact .initialised rfl hp u (initDone_of_opInit hu)

theorem exec_blockEffect {i : Instr} {s t : State} (h : exec i s = .next t) : BlockEffect s i t :=
  (exec_effect h).blockEffect

/-- No instruction changes the parameters (10_state.md R35). -/
theorem exec_config {i : Instr} {s t : State} (h : exec i s = .next t) : t.config = s.config := by
  cases exec_blockEffect h with
  | chipsOnly r => rfl
  | performed hp m u hs => exact hs.config
  | initialised hi hp u hu => exact hu.config

/-- `buf_ok`, the phase and the directions change under INIT only (R22, R23, R25). -/
theorem exec_flag {i : Instr} {s t : State} (h : exec i s = .next t) :
    (t.bufOk = s.bufOk ∧ t.phase = s.phase ∧ t.isOutput = s.isOutput) ∨
    (i = .init ∧ s.phase = .preInit ∧ t.phase = .ready ∧ t.bufOk = s.config.allocOk) := by
  cases exec_blockEffect h with
  | chipsOnly r => exact .inl ⟨rfl, rfl, rfl⟩
  | performed hp m u hs => exact .inl ⟨hs.bufOk, hs.phase, hs.isOutput⟩
  | initialised hi hp u hu => exact .inr ⟨hi, hp, hu.phase, hu.bufOk⟩

/-- A step that answers a next state is idle, a reset, or an instruction over the rest of the offers. -/
theorem step_idle_reset_or_exec {s t : State} (h : step s = .next t) :
    t = s ∨ (∃ rest, s.host = .reset :: rest ∧ t = resetBlock { s with host := rest }) ∨
    ∃ rest i, exec i { s with host := rest } = .next t := by
  obtain ⟨-, rfl⟩ | ⟨rest, hh, rfl⟩ | ⟨_, rest, i, -, -, he⟩ | ⟨_, rest, i, -, -, he⟩ := step_next h
  · exact .inl rfl
  · exact .inr (.inl ⟨rest, hh, rfl⟩)
  · exact .inr (.inr ⟨rest, i, he⟩)
  · exact .inr (.inr ⟨rest, i, he⟩)

/-! ### The invariant -/

/-- The invariant of a block before construction (R34, R230), whatever the platform and the outside hold. -/
theorem blockInv_powerOn (c : Params) (w : WorkRegs) (ch : ChainWord) (r : Vector ChipRegs 4) (d : Nat)
    (ins : List Input) : BlockInv { State.powerOn c w ch r with draws := d, host := ins } where
  idle := ⟨rfl, rfl⟩
  canonical := rfl
  absent _ := rfl
  before _ := ⟨rfl, rfl, rfl, rfl⟩
  after := nofun

/-- The invariant says nothing of the chips' registers and of what the outside offers. -/
theorem BlockInv.with_regs_host {s : State} (h : BlockInv s) (r : Vector ChipRegs 4) (ins : List Input) :
    BlockInv { s with regs := r, host := ins } :=
  ⟨h.idle, h.canonical, h.absent, h.before, h.after⟩

/-- A state of phase Ready meets the invariant when a command ends in it as R22, R25 and R129 say. -/
theorem blockInv_finish {u : State} (hp : u.phase = .ready) (hw : u.buf.wf = true) (ha : u.bufOk = false → u.buf = [])
    (hb : u.bufOk = u.config.allocOk) (ho : u.isOutput = { data := true, clk := true, load := true })
    (hl : LinesIdle u) : BlockInv (finish u) where
  idle := ⟨rfl, rfl⟩
  canonical := hw
  absent := ha
  before h := by simp [hp] at h
  after _ := ⟨hb, ho, hl⟩

/-- Every instruction keeps the invariant. -/
theorem exec_keeps_blockInv {i : Instr} {s t : State} (hi : BlockInv s) (h : exec i s = .next t) : BlockInv t := by
  cases exec_blockEffect h with
  | chipsOnly r => exact hi.with_regs_host r s.host
  | performed hp m u hs hw ha hl =>
    obtain ⟨hbok, hout, hlines⟩ := hi.after hp
    have hbuf : u.buf = m := hs.buf
    have hflag : u.bufOk = s.bufOk := hs.bufOk
    refine blockInv_finish (hs.phase.trans hp) (hbuf ▸ hw hi.canonical) (fun hb => ?_) ?_ (hs.isOutput.trans hout)
      (hl hlines)
    · have hb' : s.bufOk = false := hflag ▸ hb
      rw [hbuf, ha hb', hi.absent hb']
    · exact (hflag.trans hbok).trans (congrArg Params.allocOk hs.config).symm
  | initialised _ hp u hu =>
    exact blockInv_finish hu.phase (hu.buf ▸ rfl) (fun _ => hu.buf)
      (hu.bufOk.trans (congrArg Params.allocOk hu.config).symm) hu.isOutput hu.lines

/-! ### The buffer and the frames -/

/-- An instruction after which the buffer differs is one of the four buffer operations (R35). -/
theorem Effect.buf_changed {s t : State} {i : Instr} (h : Effect s i t) (hne : t.buf ≠ s.buf) :
    (∃ x y v, i = .bufpix x y v) ∨ (∃ x y v, i = .write x y v) ∨ i = .clear ∨ i = .init := by
  cases h with
  | nothing => exact absurd rfl hne
  | stored => exact absurd rfl hne
  | sentByte v => exact absurd (SameBlock.opSendByte v (accept s)).buf hne
  | setReg => exact absurd rfl hne
  | syncCol => exact absurd rfl hne
  | bufPix x y v => exact .inl ⟨x, y, v, rfl⟩
  | wrote x y v => exact .inr (.inl ⟨x, y, v, rfl⟩)
  | cleared => exact .inr (.inr (.inl rfl))
  | initialised => exact .inr (.inr (.inr rfl))

/-- Storing in one chip's register file leaves every other chip's registers. -/
theorem regAt_set_other (s : State) {k k' : Nat} (h : k < 4) (r : ChipRegs) (a : Byte) (hne : k' ≠ k) :
    regAt { s with regs := s.regs.set k r } k' a = regAt s k' a := by
  by_cases hk : k' < 4
  · rw [regAt_eq hk, regAt_eq hk, Vector.getElem_set_ne h hk hne.symm]
  · simp [regAt, hk]

/-- A frame changes the register file of the chip that holds it and nothing else (60_exceptions.md R211, R214). -/
theorem Effect.frame {s t : State} {i : Instr} {k : Nat} (hk : i.chip? = some k) (h : Effect s i t) :
    t = { s with regs := t.regs } ∧ ∀ k' a, k' ≠ k → regAt t k' a = regAt s k' a := by
  cases h with
  | nothing => exact ⟨rfl, fun _ _ _ => rfl⟩
  | stored _ j hj a v hk' =>
    obtain rfl : j = k := Option.some.inj (hk'.symm.trans hk)
    exact ⟨rfl, fun _ a hne => regAt_set_other s hj _ a hne⟩
  | _ => cases hk

/-! ### The obligations -/

/-- Settles O46, by the invariant over every instruction (`exec_keeps_blockInv`). -/
theorem everyStepKeepsTheInvariant : Obligations.EveryStepKeepsTheInvariant := by
  intro s t hi h
  obtain rfl | ⟨rest, -, rfl⟩ | ⟨rest, i, he⟩ := step_idle_reset_or_exec h
  · exact hi
  · exact blockInv_powerOn ..
  · exact exec_keeps_blockInv (hi.with_regs_host s.regs rest) he

/-- Settles O43: neither an instruction nor a reset writes the parameters. -/
theorem noStepChangesTheConfiguration : Obligations.NoStepChangesTheConfiguration := by
  intro s t h
  obtain rfl | ⟨rest, -, rfl⟩ | ⟨rest, i, he⟩ := step_idle_reset_or_exec h
  · rfl
  · rfl
  · exact (exec_config he).trans rfl

/-- Settles O44, by `exec_flag`: no instruction takes Ready to PreInit, so the step was a reset. -/
theorem onlyInitAndResetChangeTheFlag : Obligations.OnlyInitAndResetChangeTheFlag := by
  refine ⟨fun s t i h => exec_flag h, fun s t h hready hpre => ?_⟩
  obtain rfl | ⟨rest, hh, -⟩ | ⟨rest, i, he⟩ := step_idle_reset_or_exec h
  · simp [hready] at hpre
  · exact ⟨rest, hh⟩
  · obtain ⟨-, hphase, -⟩ | ⟨-, -, hphase, -⟩ := exec_flag he
    · simp [hphase, hready] at hpre
    · simp [hphase] at hpre

/-- Settles O45, read off the effects an instruction can have. -/
theorem onlyBufferCommandsChangeTheBuffer : Obligations.OnlyBufferCommandsChangeTheBuffer :=
  ⟨fun _ _ _ h hne => (exec_effect h).buf_changed hne, fun _ _ _ _ hk h => (exec_effect h).frame hk⟩

/-- Settles O47: `State.reset` is one of the power-on states. -/
theorem invariantHoldsAfterReset : Obligations.InvariantHoldsAfterReset :=
  ⟨blockInv_powerOn .., fun c w ch r => blockInv_powerOn c w ch r 0 []⟩

end Sys2Proof.Machine

/-! SUPPORT. The lines and the cascade follow the trace (20_memory.md R65 (b)): a relation between a state and a later
one, met by every operation of the block and kept when operations are put one after another. -/

namespace Sys2Proof.Machine

open Sys2Proof.Config (Pin)

/-- `t` is `s` after some events: they stand at the end of `t`'s trace, and fed to any state that agrees with `s` on the
lines and the cascade they make one that agrees with `t`. The state they are fed to is left free so that the relation
composes: of two parts, the second part's events run from wherever the first part's led. -/
def FollowsTrace (s t : State) : Prop :=
  ∃ es, t.trace = s.trace ++ es ∧ ∀ r, SameOutside r s → ∃ u, emitAll es r = .next u ∧ SameOutside u t

/-- Whatever next state the operation answers follows the trace. -/
def TraceFaithful (op : State → Result) : Prop := ∀ s t : State, op s = .next t → FollowsTrace s t

/-! ### The relation -/

/-- A change that makes no event and touches neither the lines nor the cascade. -/
theorem FollowsTrace.of_silent {s t : State} (hlog : t.log = s.log) (h : SameOutside s t) : FollowsTrace s t :=
  ⟨[], by simp [State.trace, hlog], fun r hr => ⟨r, rfl, hr.trans h⟩⟩

theorem FollowsTrace.refl (s : State) : FollowsTrace s s := .of_silent rfl ⟨rfl, rfl, rfl, rfl⟩

theorem FollowsTrace.trans {s t u : State} (h : FollowsTrace s t) (g : FollowsTrace t u) : FollowsTrace s u := by
  obtain ⟨es, htrace, hrun⟩ := h
  obtain ⟨fs, gtrace, grun⟩ := g
  refine ⟨es ++ fs, by rw [gtrace, htrace, List.append_assoc], fun r hr => ?_⟩
  obtain ⟨v, hv, hvt⟩ := hrun r hr
  obtain ⟨w, hw, hwu⟩ := grun v hvt
  exact ⟨w, by rw [emitAll_append, hv, andThen_next, hw], hwu⟩

/-- A `CfgOut` (10_state.md R25). -/
theorem FollowsTrace.configureOutput (p : Pin) (s : State) : FollowsTrace s (configureOutput p s) :=
  ⟨[.cfgOut p], by simp [State.trace], fun r hr => ⟨Machine.configureOutput p r, rfl, hr.lines,
    congrArg (pinSet · p true) hr.isOutput, hr.chain, hr.regs⟩⟩

/-- SENDBYTE (40_serial_link.md R110, R115). -/
theorem FollowsTrace.opSendByte (v : Byte) (s : State) : FollowsTrace s (opSendByte v s) := by
  refine ⟨byteEvents v, by simp [opSendByte_eq, State.trace], fun r hr => ?_⟩
  obtain ⟨u, hu, hlines, hout, hchain, hregs⟩ := emitAll_byte v r
  rw [opSendByte_eq]
  exact ⟨u, hu, by rw [hlines, hr.lines], hout.trans hr.isOutput, by rw [hchain, hr.chain], hregs.trans hr.regs⟩

/-- A transaction is made by its events from any lines and any chain, so it agrees when the registers did. -/
theorem SameOutside.transacted {r s : State} (h : SameOutside r s) (f0 f1 f2 f3 : Byte × Byte) :
    SameOutside (transacted f0 f1 f2 f3 r) (transacted f0 f1 f2 f3 s) :=
  ⟨rfl, h.isOutput, rfl, by simp only [transacted_regs, h.regs]⟩

/-- A latch transaction of frames of the map (41_register_protocol.md R120 to R122). -/
theorem FollowsTrace.transacted {f0 f1 f2 f3 : Byte × Byte} (s : State) (h0 : inMap f0.1 = true)
    (h1 : inMap f1.1 = true) (h2 : inMap f2.1 = true) (h3 : inMap f3.1 = true) :
    FollowsTrace s (transacted f0 f1 f2 f3 s) := by
  refine ⟨transactionEvents [f0, f1, f2, f3], by simp [State.trace], fun r hr => ?_⟩
  obtain ⟨u, hu, hur⟩ := emitAll_transaction f0 f1 f2 f3 r h0 h1 h2 h3
  exact ⟨u, hu, hur.trans (hr.transacted ..)⟩

/-! ### The operations -/

theorem TraceFaithful.andThen {op f : State → Result} (hop : TraceFaithful op) (hf : TraceFaithful f) :
    TraceFaithful fun s => andThen (op s) f := fun s t h => by
  obtain ⟨u, hu, hut⟩ := andThen_eq_next h
  exact (hop _ _ hu).trans (hf _ _ hut)

/-- An operation begun after a change of the state that follows the trace itself. -/
theorem TraceFaithful.after {op : State → Result} (hop : TraceFaithful op) {g : State → State}
    (hg : ∀ s, FollowsTrace s (g s)) : TraceFaithful fun s => op (g s) := fun s _ h => (hg s).trans (hop _ _ h)

/-- An operation that is skipped under a condition. -/
theorem TraceFaithful.unless {op : State → Result} (hop : TraceFaithful op) (c : State → Bool) :
    TraceFaithful fun s => if c s then ignore s else op s := fun s t h => by
  cases hc : c s
  · exact hop s t (by simpa [hc] using h)
  · obtain rfl : s = t := by simpa [hc, ignore] using h
    exact .refl s

theorem traceFaithful_next : TraceFaithful .next := fun _ _ h => by cases h; exact .refl _

/-- Buffer accesses are not events (R65). -/
theorem traceFaithful_memWrite (i : Nat) (v : Byte) : TraceFaithful (memWrite i v) := fun s _ h => by
  unfold memWrite at h
  split at h
  · cases h
    exact .of_silent rfl ⟨rfl, rfl, rfl, rfl⟩
  · cases h

theorem traceFaithful_zeroBytes (is : List Nat) : TraceFaithful (zeroBytes is) := by
  induction is with
  | nil => exact traceFaithful_next
  | cons i is ih => exact (traceFaithful_memWrite i _).andThen ih

theorem traceFaithful_opSetReg (reg data : Byte) : TraceFaithful (opSetReg reg data) := fun s _ h => by
  cases hm : inMap reg
  · rw [opSetReg_reserved reg data s hm] at h
    cases h
  · rw [opSetReg_eq reg data s hm] at h
    cases h
    exact .transacted s hm hm hm hm

theorem traceFaithful_opSyncCol (col : Byte) : TraceFaithful (opSyncCol col) := fun s _ h => by
  cases hi : syncIgnored col s
  · obtain ⟨hb, hc⟩ : s.bufOk = true ∧ col.toNat < 8 := by simpa [syncIgnored, noBuffer, colOutOfRange] using hi
    rw [opSyncCol_eq col s hb hc] at h
    cases h
    have hm := digitAddr_inMap col hc
    exact .transacted s hm hm hm hm
  · rw [opSyncCol_ignored col s hi] at h
    cases h
    exact .refl s

theorem traceFaithful_opBufPix (x y v : Byte) : TraceFaithful (opBufPix x y v) := fun s _ h => by
  cases hi : pixelIgnored x y s
  · obtain ⟨hb, hc⟩ : s.bufOk = true ∧ coordOutOfRange x y = false := by simpa [pixelIgnored, noBuffer] using hi
    rw [opBufPix_eq x y v s hb hc] at h
    cases h
    exact .of_silent rfl ⟨rfl, rfl, rfl, rfl⟩
  · rw [opBufPix_ignored x y v s hi] at h
    cases h
    exact .refl s

/-- WRITE is BUFPIX, then SYNCCOL (42_buffer_mapper.md R143). -/
theorem traceFaithful_opWrite (x y v : Byte) : TraceFaithful (opWrite x y v) :=
  ((traceFaithful_opBufPix x y v).andThen (traceFaithful_opSyncCol x)).unless (pixelIgnored x y)

theorem traceFaithful_syncColumns (cs : List Byte) : TraceFaithful (syncColumns cs) := by
  induction cs with
  | nil => exact traceFaithful_next
  | cons c cs ih =>
    intro s t h
    obtain ⟨u, hu, hut⟩ := andThen_eq_next h
    have hcol : FollowsTrace s { s with work := { s.work with colidx := c.setWidth 3 } } :=
      .of_silent rfl ⟨rfl, rfl, rfl, rfl⟩
    exact (hcol.trans (traceFaithful_opSyncCol c _ _ hu)).trans (ih _ _ hut)

/-- CLEAR is the zero-fill, then the columns (R146). -/
theorem traceFaithful_opClear : TraceFaithful opClear :=
  ((traceFaithful_zeroBytes _).andThen (traceFaithful_syncColumns columns)).unless clearIgnored

theorem traceFaithful_setRegs (n : Nat) (ws : List (Byte × Byte)) : TraceFaithful (setRegs n ws) := by
  induction ws generalizing n with
  | nil => exact traceFaithful_next
  | cons w ws ih =>
    intro s t h
    obtain ⟨u, hu, hut⟩ := andThen_eq_next h
    have hcfg : FollowsTrace s { s with work := { s.work with cfgidx := BitVec.ofNat 3 n } } :=
      .of_silent rfl ⟨rfl, rfl, rfl, rfl⟩
    exact (hcfg.trans (traceFaithful_opSetReg w.1 w.2 _ _ hu)).trans (ih (n + 1) _ _ hut)

theorem FollowsTrace.configureLines (s : State) : FollowsTrace s (configureLines s) :=
  ((FollowsTrace.configureOutput .data s).trans (.configureOutput .clk _)).trans (.configureOutput .load _)

theorem traceFaithful_allocateAndZero : TraceFaithful allocateAndZero := fun s _ h => by
  have hs : FollowsTrace s (allocate s) := .of_silent rfl ⟨rfl, rfl, rfl, rfl⟩
  cases ha : s.config.allocOk <;> simp only [allocateAndZero, allocate_bufOk, ha] at h
  · cases h
    exact hs
  · exact hs.trans (traceFaithful_zeroBytes _ _ _ h)

/-- INIT is the directions, the buffer, CLEAR, the configuration writes and the phase (43_init_sequence.md R160). -/
theorem traceFaithful_opInit : TraceFaithful opInit := by
  have hphase : TraceFaithful fun s => .next { s with phase := .ready } :=
    traceFaithful_next.after fun s => .of_silent rfl ⟨rfl, rfl, rfl, rfl⟩
  have hconfigured : TraceFaithful fun s =>
      andThen (setRegs 0 (configWrites s.config) s) fun s => .next { s with phase := .ready } :=
    fun s => (traceFaithful_setRegs 0 (configWrites s.config)).andThen hphase s
  exact (traceFaithful_allocateAndZero.after .configureLines).andThen (traceFaithful_opClear.andThen hconfigured)

/-- A command is as faithful as its operation: accepting and finishing are no events (10_state.md R27). -/
theorem traceFaithful_command {op : State → Result} (hop : TraceFaithful op) (legal : Phase) (ign : State → Bool) :
    TraceFaithful (command legal ign op) := fun s _ h => by
  obtain ⟨-, rfl⟩ | ⟨-, -, -, -, rfl⟩ | ⟨-, -, -, -, u, hu, rfl⟩ := command_next h
  · exact .refl _
  · exact .refl _
  · have haccept : FollowsTrace s (accept s) := .of_silent rfl ⟨rfl, rfl, rfl, rfl⟩
    exact (haccept.trans (hop _ _ hu)).trans (.of_silent rfl ⟨rfl, rfl, rfl, rfl⟩)

theorem traceFaithful_exec {i : Instr} (hi : i.isCommand = true) : TraceFaithful (exec i) := by
  cases i with
  | init => exact traceFaithful_command traceFaithful_opInit _ _
  | write x y v => exact traceFaithful_command (traceFaithful_opWrite x y v) _ _
  | clear => exact traceFaithful_command traceFaithful_opClear _ _
  | bufpix x y v => exact traceFaithful_command (traceFaithful_opBufPix x y v) _ _
  | synccol c => exact traceFaithful_command (traceFaithful_opSyncCol c) _ _
  | setreg r d => exact traceFaithful_command (traceFaithful_opSetReg r d) _ _
  | sendbyte v => exact traceFaithful_command (traceFaithful_next.after (.opSendByte v)) _ _
  | _ => cases hi

/-- Settles O41, by `traceFaithful_exec` with the events fed to the state before the command itself. -/
theorem cascadeFollowsTheTrace : Obligations.CascadeFollowsTheTrace := by
  intro i s t hi _ h
  obtain ⟨es, htrace, hrun⟩ := traceFaithful_exec hi s t h
  obtain ⟨u, hu, hout⟩ := hrun s (.refl s)
  exact ⟨es, u, htrace, hu, hout.lines, hout.isOutput, hout.chain, hout.regs⟩

end Sys2Proof.Machine

/-! SUPPORT. Mirror coherence (20_memory.md R67): what of a state it speaks of, and what a change of the buffer, a
column's transaction, a broadcast and a dark buffer do to it. -/

namespace Sys2Proof.Machine

/-! ### Coordinates and columns -/

theorem ValidPixel.inRange {x y : Byte} (h : ValidPixel x y) : coordOutOfRange x y = false := coordOutOfRange_false.mpr h

/-- The mapper's inverse (R54). -/
theorem index_bitpos_inverse {x y : Byte} (h : ValidPixel x y) :
    x.toNat = index x y % 8 ∧ y.toNat = 8 * (index x y / 8) + (7 - bitpos y) := by
  obtain ⟨hx, hy⟩ := h
  simp only [index, bitpos]
  omega

/-- The bytes of different columns are different bytes (R53). -/
theorem syncIndex_ne_index {c x y : Byte} (hc : c.toNat < 8) (hx : x.toNat < 8) (hne : c ≠ x) (m : Nat) :
    syncIndex c m ≠ index x y := by
  have : c.toNat ≠ x.toNat := fun h => hne (BitVec.eq_of_toNat_eq h)
  simp only [syncIndex, index]
  omega

theorem chipOfModule_lt (m : Nat) : chipOfModule m < 4 := by
  simp only [chipOfModule, Config.numChips]
  omega

/-- Chip and module are each other's mirror image in the chain (R58). -/
theorem three_sub_chipOfModule {m : Nat} (h : m < 4) : 3 - chipOfModule m = m := by
  simp only [chipOfModule, Config.numChips]
  omega

/-- A result is at most one next state. -/
theorem next_unique {r : Result} {t u : State} (ht : r = .next t) (hu : r = .next u) : t = u :=
  Host.Outcome.next.inj (ht.symm.trans hu)

/-- After an instruction in phase Ready the next one can be offered. -/
theorem exec_keeps_ready {i : Instr} {s t : State} (hs : Ready s) (h : exec i s = .next t) : Ready t := by
  obtain ⟨⟨hbusy, hseq, hpins⟩, hphase⟩ := hs
  cases exec_blockEffect h with
  | chipsOnly => exact ⟨⟨hbusy, hseq, hpins⟩, hphase⟩
  | performed _ m u hsame =>
    exact ⟨⟨rfl, rfl, (congrArg pinsDistinct hsame.config).trans hpins⟩, hsame.phase.trans hphase⟩
  | initialised _ hpre => simp [hphase] at hpre

/-- SYNCCOL in phase Ready, ignored or not, is one transaction of its column or nothing. -/
theorem exec_synccol_cases {s t : State} (hs : Ready s) {col : Byte} (h : exec (.synccol col) s = .next t) :
    (syncIgnored col s = true ∧ t = s) ∨
    (s.bufOk = true ∧ col.toNat < 8 ∧ t = finish (transacted (columnFrame col s.buf 0) (columnFrame col s.buf 1)
      (columnFrame col s.buf 2) (columnFrame col s.buf 3) (accept s))) := by
  cases hi : syncIgnored col s
  · obtain ⟨hb, hc⟩ : s.bufOk = true ∧ col.toNat < 8 := by simpa [syncIgnored, noBuffer, colOutOfRange] using hi
    exact .inr ⟨hb, hc, next_unique h (exec_synccol hs hb hc)⟩
  · exact .inl ⟨rfl, next_unique h (exec_synccol_ignored hs hi)⟩

/-! ### What the mirror depends on -/

@[simp] theorem mirrored_finish {c : Byte} {s : State} : mirrored c (finish s) ↔ mirrored c s := Iff.rfl

/-- The mirror speaks of the chips and the bytes of its own column only. -/
theorem mirrored_of_column_kept {c : Byte} {s t : State} (h : mirrored c s)
    (hregs : ∀ k, k < 4 → regAt t k (digitAddr c) = regAt s k (digitAddr c))
    (hbuf : ∀ m, t.buf.read (syncIndex c m) = s.buf.read (syncIndex c m)) : mirrored c t := fun m hm => by
  rw [hregs _ (chipOfModule_lt m), hbuf m]
  exact h m hm

/-- Writing a pixel's byte leaves the mirror of every other column. -/
theorem mirrored_write_other {s t : State} {c x y b : Byte} (hw : s.buf.wf = true) (hc : c.toNat < 8)
    (hx : x.toNat < 8) (hne : c ≠ x) (hregs : t.regs = s.regs) (hbuf : t.buf = s.buf.write (index x y) b)
    (h : mirrored c s) : mirrored c t :=
  mirrored_of_column_kept h (fun k hk => by rw [regAt_eq hk, regAt_eq hk, hregs])
    (fun m => by rw [hbuf, Memory.read_write hw, if_neg (syncIndex_ne_index hc hx hne m)])

/-- SYNCCOL's transaction makes its own column mirrored and keeps the others (R67, R68). -/
theorem mirrored_transacted_column {s : State} {c col : Byte} (hcol : col.toNat < 8) (h : c = col ∨ mirrored c s) :
    mirrored c (transacted (columnFrame col s.buf 0) (columnFrame col s.buf 1) (columnFrame col s.buf 2)
      (columnFrame col s.buf 3) s) := fun m hm => by
  have hk := chipOfModule_lt m
  rw [regAt_column hk hcol (transacted_column_reg col s.buf s _ hk), three_sub_chipOfModule hm]
  by_cases hc : c = col
  · subst hc
    rw [if_pos rfl]
    rfl
  · rw [if_neg fun ha => hc (digitAddr_inj ha)]
    exact h.resolve_left hc m hm

/-- SETREG keeps the mirror of every column but the one its register shows (R67). -/
theorem mirrored_transacted_broadcast {s : State} {c r d : Byte} (hne : r ≠ digitAddr c) (h : mirrored c s) :
    mirrored c (transacted (r, d) (r, d) (r, d) (r, d) s) :=
  mirrored_of_column_kept h
    (fun k hk => by rw [regAt_applied hk (transacted_broadcast_reg (r, d) s k hk), if_neg hne.symm]) (fun _ => rfl)

/-- A dark buffer is mirrored by dark digit registers (R67, 42_buffer_mapper.md R146). -/
theorem mirrored_dark {c : Byte} {t : State} {r : Vector ChipRegs 4} (hc : c.toNat < 8) (hbuf : t.buf = [])
    (hregs : t.regs = r.map darkRegs) : mirrored c t := fun m _ => by
  have hk := chipOfModule_lt m
  have ha : 1 ≤ (digitAddr c).toNat ∧ (digitAddr c).toNat ≤ 8 := by simp only [digitAddr]; bv_omega
  rw [regAt_eq hk, hbuf, Memory.read_nil]
  simp only [hregs, Vector.getElem_map]
  exact darkRegs_digit _ ha.1 ha.2

/-! ### A latch repeated -/

theorem ChipRegs.write_write (r : ChipRegs) (a : RegAddr) (v w : Byte) : (r.write a v).write a w = r.write a w := by
  cases a <;> rfl

theorem applyFrame_idem (a d : Byte) (r : ChipRegs) : applyFrame a d (applyFrame a d r) = applyFrame a d r := by
  unfold applyFrame
  cases RegAddr.ofCode a with
  | none => rfl
  | some a => exact ChipRegs.write_write r a d d

theorem darkRegs_idem (r : ChipRegs) : darkRegs (darkRegs r) = darkRegs r := rfl

/-! ### The obligations -/

/-- Settles O49: WRITE is a pixel's byte, which touches its own column only, then that column's transaction; CLEAR
leaves buffer and display dark. -/
theorem publicCommandsKeepTheMirror : Obligations.PublicCommandsKeepTheMirror := by
  intro s t op c hs hb hw hc hm h
  cases op with
  | write x y v =>
    cases exec_effect h with
    | nothing => exact hm
    | stored _ _ _ _ _ hk => cases hk
    | wrote _ _ _ _ _ hr m hbuf =>
      have hx := (coordOutOfRange_false.mp hr).1
      refine mirrored_finish.mpr (mirrored_transacted_column hx ?_)
      by_cases hcx : c = x
      · exact .inl hcx
      · exact .inr (mirrored_write_other hw hc hx hcx rfl hbuf hm)
  | clear =>
    obtain rfl := next_unique (exec_clear hs hb hw) h
    exact mirrored_dark hc rfl rfl

/-- Settles O50, by what each command's change does to a column's mirror. -/
theorem syncColRestoresTheMirror : Obligations.SyncColRestoresTheMirror := by
  intro s t c hs hb hw hc
  refine ⟨fun x y v h hne hm => ?_, fun r d h hne hm => ?_, fun col hcol h hm => ?_⟩
  · cases exec_effect h with
    | nothing => exact hm
    | stored _ _ _ _ _ hk => cases hk
    | bufPix _ _ _ _ _ hr m hbuf =>
      exact mirrored_write_other hw hc (coordOutOfRange_false.mp hr).1 hne rfl hbuf hm
  · cases exec_effect h with
    | nothing => exact hm
    | stored _ _ _ _ _ hk => cases hk
    | setReg => exact mirrored_finish.mpr (mirrored_transacted_broadcast hne hm)
  · obtain rfl := next_unique (exec_synccol hs hb hcol) h
    exact mirrored_finish.mpr (mirrored_transacted_column hcol hm)

/-- Settles O51: the second SYNCCOL latches the frames the first did, the second CLEAR darkens what is dark. -/
theorem syncColAndClearAreIdempotent : Obligations.SyncColAndClearAreIdempotent := by
  refine ⟨fun s t u col hs ht hu => ?_, fun s t u hs hw ht hu => ?_⟩
  · have hready := exec_keeps_ready hs ht
    obtain ⟨hi, rfl⟩ | ⟨-, -, rfl⟩ := exec_synccol_cases hs ht
    · obtain rfl := next_unique (exec_synccol_ignored hs hi) hu
      exact ⟨rfl, rfl⟩
    · obtain ⟨-, rfl⟩ | ⟨-, -, rfl⟩ := exec_synccol_cases hready hu
      · exact ⟨rfl, rfl⟩
      · refine ⟨Vector.ext fun k hk => ?_, rfl⟩
        rw [finish_regs, transacted_column_reg _ _ _ k hk]
        simp only [accept_regs, finish_regs, finish_buf, transacted_buf, accept_buf]
        rw [transacted_column_reg _ _ _ k hk, applyFrame_idem]
  · cases hb : s.bufOk
    · obtain rfl := next_unique (exec_clear_ignored hs hb) ht
      obtain rfl := next_unique (exec_clear_ignored hs hb) hu
      exact ⟨rfl, rfl, rfl, rfl⟩
    · have hready := exec_keeps_ready hs ht
      obtain rfl := next_unique (exec_clear hs hb hw) ht
      obtain rfl := next_unique (exec_clear hready hb rfl) hu
      exact ⟨rfl, by rw [Vector.map_map]; exact congrArg (s.regs.map ·) (funext darkRegs_idem), rfl, rfl⟩

/-- Settles O54: a mirrored column would make the byte written bare the one it replaced, respectively the buffer's. -/
theorem bareWritesBreakTheMirror : Obligations.BareWritesBreakTheMirror := by
  intro s c hs hb hw hc
  refine ⟨fun y v hy hm hne => ?_, fun d m hm hne => ?_⟩
  · have hv : ValidPixel c y := ⟨hc, hy⟩
    refine ⟨_, exec_bufpix hs hb v hv.inRange, fun ht => hne ?_⟩
    have hmod : moduleOf y < Config.numChips := by simp only [moduleOf, Config.numChips]; omega
    have hbyte : some ((s.buf.write (index c y) (pixelByte (s.buf.read (index c y)) (mask y) v)).read (index c y)) =
        some (s.buf.read (index c y)) := (ht _ hmod).symm.trans (hm _ hmod)
    have hbit := pixelBit_write hw v hv hv
    rw [if_pos ⟨rfl, rfl⟩, pixelBit, Option.some.inj hbyte] at hbit
    exact hbit
  · refine ⟨_, exec_setreg hs d (digitAddr_inMap c hc), fun ht => hne ?_⟩
    have hk := chipOfModule_lt m
    have hreg := regAt_column hk hc (transacted_broadcast_reg (digitAddr c, d) (accept s) _ hk) (digitAddr c)
    rw [if_pos rfl] at hreg
    exact Option.some.inj (hreg.symm.trans (ht m hm))

/-- Settles O27, by the mapper's inverse, `pixel_surj` and `pixel_inj`. -/
theorem mapperIsBijective : Obligations.MapperIsBijective :=
  ⟨fun _ y h => ⟨Nat.le_of_lt_succ (index_lt h.inRange), Nat.le_of_lt_succ (bitpos_lt y), index_bitpos_inverse h⟩,
    fun _ _ hi hb => pixel_surj hi (Nat.lt_succ_of_le hb), fun _ _ _ _ h h' => pixel_inj h h'⟩

end Sys2Proof.Machine

/-! SUPPORT. The two opcode maps and the decoder (30_encoding.md R80 to R93): a word decodes to an instruction exactly when
it is that instruction's encoding, so what matches a row of a map is read off the encodings. -/

namespace Sys2Proof

/-! ### Decoding inverts encoding -/

/-- Decoding an encoded instruction gives it back wherever the instruction is not hidden (R82). -/
theorem decode_encode {expose : Bool} {i : Instr} (h : i.isInternal = true → expose = true) :
    decode expose (encode i) = .ok i := by
  have inverts : Laws.Encoding.Statement i := by
    cases i with
    | init => exact Laws.Encoding.init
    | write x y v => exact Laws.Encoding.write x y v
    | clear => exact Laws.Encoding.clear
    | bufpix x y v => exact Laws.Encoding.bufpix x y v
    | synccol col => exact Laws.Encoding.synccol col
    | setreg r d => exact Laws.Encoding.setreg r d
    | sendbyte v => exact Laws.Encoding.sendbyte v
    | noop k d => exact Laws.Encoding.noop k d
    | digit1 k d => exact Laws.Encoding.digit1 k d
    | digit2 k d => exact Laws.Encoding.digit2 k d
    | digit3 k d => exact Laws.Encoding.digit3 k d
    | digit4 k d => exact Laws.Encoding.digit4 k d
    | digit5 k d => exact Laws.Encoding.digit5 k d
    | digit6 k d => exact Laws.Encoding.digit6 k d
    | digit7 k d => exact Laws.Encoding.digit7 k d
    | digit8 k d => exact Laws.Encoding.digit8 k d
    | decode k d => exact Laws.Encoding.decode k d
    | intensity k d => exact Laws.Encoding.intensity k d
    | scanlimit k d => exact Laws.Encoding.scanlimit k d
    | shutdown k d => exact Laws.Encoding.shutdown k d
    | disptest k d => exact Laws.Encoding.disptest k d
  obtain ⟨shown, hidden⟩ := inverts
  cases expose with
  | true => exact shown
  | false => exact hidden (by simpa using h)

/-! ### What a decoder answers -/

theorem whenZero_ok_iff {op : Byte} {unused : List Byte} {i j : Instr} :
    whenZero op unused i = .ok j ↔ (∀ u ∈ unused, u = 0#8) ∧ i = j := by
  simp only [whenZero, List.all_eq_true, beq_iff_eq]
  split
  · next h => simp [eq_true h]
  · next h => simp [h]

theorem whenExposed_ok_iff {expose : Bool} {op : Byte} {r : Except DecodeError Instr} {i : Instr} :
    whenExposed expose op r = .ok i ↔ expose = true ∧ r = .ok i := by
  cases expose <;> simp [whenExposed]

/-- A command word that decodes is the encoding of what it decodes to, its unused fields being zero (R82, R83). -/
theorem encode_of_decodeCommand {expose : Bool} {cw : CommandWord} {i : Instr} (h : decodeCommand expose cw = .ok i) :
    encode i = .command cw ∧ (i.isInternal = true → expose = true) := by
  rw [← commandWord_of_fields cw]
  simp only [decodeCommand] at h
  split_ifs at h with hop hop hop hop hop hop hop
  all_goals
    simp only [whenExposed_ok_iff, whenZero_ok_iff, List.forall_mem_cons, Except.ok.injEq] at h
    rw [hop]
  · obtain ⟨⟨ha, hb, hc, -⟩, rfl⟩ := h
    simp [encode, ha, hb, hc, Instr.isInternal]
  · subst h
    simp [encode, Instr.isInternal]
  · obtain ⟨⟨ha, hb, hc, -⟩, rfl⟩ := h
    simp [encode, ha, hb, hc, Instr.isInternal]
  · obtain ⟨hexp, rfl⟩ := h
    simp [encode, hexp]
  · obtain ⟨hexp, ⟨hb, hc, -⟩, rfl⟩ := h
    simp [encode, hb, hc, hexp]
  · obtain ⟨hexp, ⟨hc, -⟩, rfl⟩ := h
    simp [encode, hc, hexp]
  · obtain ⟨hexp, ⟨hb, hc, -⟩, rfl⟩ := h
    simp [encode, hb, hc, hexp]

/-- The fourteen address bytes of the register map (R87). -/
theorem inMap_iff (a : Byte) : Machine.inMap a = true ↔ a = 0x00#8 ∨ a = 0x01#8 ∨ a = 0x02#8 ∨ a = 0x03#8 ∨ a = 0x04#8 ∨
    a = 0x05#8 ∨ a = 0x06#8 ∨ a = 0x07#8 ∨ a = 0x08#8 ∨ a = 0x09#8 ∨ a = 0x0A#8 ∨ a = 0x0B#8 ∨ a = 0x0C#8 ∨
    a = 0x0F#8 := by
  revert a
  decide

/-- A frame whose address is in the map is the encoding of its row's instruction, which is not internal. -/
theorem exists_encode_of_inMap (k : Nat) {f : Frame} (h : Machine.inMap (Frame.addr f) = true) :
    ∃ i, encode i = .frame k f ∧ i.isInternal = false := by
  rw [← frameWord_of_fields f]
  revert h
  generalize Frame.addr f = a, Frame.data f = d
  rw [inMap_iff]
  rintro (rfl | rfl | rfl | rfl | rfl | rfl | rfl | rfl | rfl | rfl | rfl | rfl | rfl | rfl)
  · exact ⟨.noop k d, rfl, rfl⟩
  · exact ⟨.digit1 k d, rfl, rfl⟩
  · exact ⟨.digit2 k d, rfl, rfl⟩
  · exact ⟨.digit3 k d, rfl, rfl⟩
  · exact ⟨.digit4 k d, rfl, rfl⟩
  · exact ⟨.digit5 k d, rfl, rfl⟩
  · exact ⟨.digit6 k d, rfl, rfl⟩
  · exact ⟨.digit7 k d, rfl, rfl⟩
  · exact ⟨.digit8 k d, rfl, rfl⟩
  · exact ⟨.decode k d, rfl, rfl⟩
  · exact ⟨.intensity k d, rfl, rfl⟩
  · exact ⟨.scanlimit k d, rfl, rfl⟩
  · exact ⟨.shutdown k d, rfl, rfl⟩
  · exact ⟨.disptest k d, rfl, rfl⟩

/-- An address outside the map is reserved, for every chip and data byte (R90). -/
theorem decodeFrame_reserved (k : Nat) {f : Frame} (h : Machine.inMap (Frame.addr f) = false) :
    decodeFrame k f = .error (.reservedAddress (Frame.addr f)) := by
  have hrows := (inMap_iff (Frame.addr f)).not.mp (by simp [h])
  simp only [not_or] at hrows
  simp only [decodeFrame, hrows, if_false]

/-- A frame that decodes is the encoding of what it decodes to, and no frame is an internal operation (R86, R87). -/
theorem encode_of_decodeFrame {k : Nat} {f : Frame} {i : Instr} (h : decodeFrame k f = .ok i) :
    encode i = .frame k f ∧ i.isInternal = false := by
  cases hm : Machine.inMap (Frame.addr f) with
  | false => simp [decodeFrame_reserved k hm] at h
  | true =>
    obtain ⟨j, hj, hint⟩ := exists_encode_of_inMap k hm
    have hdecode : decode true (.frame k f) = .ok j := hj ▸ decode_encode fun _ => rfl
    obtain rfl : i = j := Except.ok.inj (h.symm.trans hdecode)
    exact ⟨hj, hint⟩

/-- A word decodes to an instruction exactly when it is its encoding and the instruction is not hidden. -/
theorem decode_ok_iff {expose : Bool} {w : CodeWord} {i : Instr} :
    decode expose w = .ok i ↔ encode i = w ∧ (i.isInternal = true → expose = true) := by
  constructor
  · intro h
    cases w with
    | command cw => exact encode_of_decodeCommand h
    | frame k f =>
      obtain ⟨hw, hi⟩ := encode_of_decodeFrame h
      exact ⟨hw, by simp [hi]⟩
  · rintro ⟨rfl, h⟩
    exact decode_encode h

/-- The word of an internal operation is reserved by name while the internals are hidden (R85). -/
theorem decode_hidden {i : Instr} (h : i.isInternal = true) :
    ∃ op, decode false (encode i) = .error (.internalNotExposed op) := by
  cases i with
  | bufpix | synccol | setreg | sendbyte => simp [decode, encode, decodeCommand, commandWord_fields, whenExposed]
  | _ => cases h

/-! ### The opcode map of format H (R82) -/

/-- `BitVec.and_allOnes` for the literal the masks are written with. -/
theorem byte_and_ff (b : Byte) : b &&& 0xFF#8 = b := BitVec.and_allOnes

/-- Two command words are the same when their fields are. -/
theorem commandWord_ext_iff {x y : CommandWord} : x = y ↔ CommandWord.op x = CommandWord.op y ∧
    CommandWord.a x = CommandWord.a y ∧ CommandWord.b x = CommandWord.b y ∧ CommandWord.c x = CommandWord.c y := by
  constructor
  · rintro rfl
    exact ⟨rfl, rfl, rfl, rfl⟩
  · rintro ⟨ho, ha, hb, hc⟩
    rw [← commandWord_of_fields x, ← commandWord_of_fields y, ho, ha, hb, hc]

/-- A mask acts on each field by its own. -/
theorem commandWord_and_fields (x y : CommandWord) :
    CommandWord.op (x &&& y) = CommandWord.op x &&& CommandWord.op y ∧
    CommandWord.a (x &&& y) = CommandWord.a x &&& CommandWord.a y ∧
    CommandWord.b (x &&& y) = CommandWord.b x &&& CommandWord.b y ∧
    CommandWord.c (x &&& y) = CommandWord.c x &&& CommandWord.c y :=
  ⟨BitVec.extractLsb'_and, BitVec.extractLsb'_and, BitVec.extractLsb'_and, BitVec.extractLsb'_and⟩

/-- A row of the map in fields: the opcode, and for each operand byte the bits that must be zero. -/
def rowOf (op ma mb mc : Byte) (internal : Bool) : CommandRow :=
  { pattern := commandWord op 0x00#8 0x00#8 0x00#8, mask := commandWord 0xFF#8 ma mb mc, internal := internal }

theorem commandRows_eq : commandRows =
    [ rowOf 0x01#8 0xFF#8 0xFF#8 0xFF#8 false, rowOf 0x02#8 0x00#8 0x00#8 0x00#8 false,
      rowOf 0x03#8 0xFF#8 0xFF#8 0xFF#8 false, rowOf 0x10#8 0x00#8 0x00#8 0x00#8 true,
      rowOf 0x11#8 0x00#8 0xFF#8 0xFF#8 true, rowOf 0x12#8 0x00#8 0x00#8 0xFF#8 true,
      rowOf 0x13#8 0x00#8 0xFF#8 0xFF#8 true ] := by decide

theorem matches_rowOf_iff (o a b c op ma mb mc : Byte) (internal : Bool) :
    commandWord o a b c &&& (rowOf op ma mb mc internal).mask = (rowOf op ma mb mc internal).pattern ↔
      o = op ∧ a &&& ma = 0#8 ∧ b &&& mb = 0#8 ∧ c &&& mc = 0#8 := by
  simp only [rowOf, commandWord_ext_iff, commandWord_and_fields, commandWord_fields, byte_and_ff]

/-- The map row by row in fields: which opcode, which operand bytes must be zero, which rows may be hidden. -/
theorem matchesCommandRow_fields (expose : Bool) (o a b c : Byte) : matchesCommandRow expose (commandWord o a b c) = true ↔
    (o = 0x01#8 ∧ a = 0#8 ∧ b = 0#8 ∧ c = 0#8) ∨ o = 0x02#8 ∨ (o = 0x03#8 ∧ a = 0#8 ∧ b = 0#8 ∧ c = 0#8) ∨
    (o = 0x10#8 ∧ expose = true) ∨ ((o = 0x11#8 ∧ b = 0#8 ∧ c = 0#8) ∧ expose = true) ∨
    ((o = 0x12#8 ∧ c = 0#8) ∧ expose = true) ∨ ((o = 0x13#8 ∧ b = 0#8 ∧ c = 0#8) ∧ expose = true) := by
  simp only [matchesCommandRow, commandRows_eq, List.any_cons, List.any_nil, Bool.or_eq_true, Bool.and_eq_true, beq_iff_eq,
    matches_rowOf_iff]
  simp [rowOf, byte_and_ff]

/-- The rows that are not hidden are met by the encodings of the instructions that are not hidden, and by no other
command word (R84, R85). -/
theorem matchesCommandRow_iff_encode (expose : Bool) (cw : CommandWord) : matchesCommandRow expose cw = true ↔
    ∃ i, encode i = .command cw ∧ (i.isInternal = true → expose = true) := by
  constructor
  · rw [← commandWord_of_fields cw, matchesCommandRow_fields]
    generalize CommandWord.op cw = o, CommandWord.a cw = a, CommandWord.b cw = b, CommandWord.c cw = c
    rintro (⟨rfl, rfl, rfl, rfl⟩ | rfl | ⟨rfl, rfl, rfl, rfl⟩ | ⟨rfl, he⟩ | ⟨⟨rfl, rfl, rfl⟩, he⟩ | ⟨⟨rfl, rfl⟩, he⟩ |
      ⟨⟨rfl, rfl, rfl⟩, he⟩)
    · exact ⟨.init, rfl, nofun⟩
    · exact ⟨.write a b c, rfl, nofun⟩
    · exact ⟨.clear, rfl, nofun⟩
    · exact ⟨.bufpix a b c, rfl, fun _ => he⟩
    · exact ⟨.synccol a, rfl, fun _ => he⟩
    · exact ⟨.setreg a b, rfl, fun _ => he⟩
    · exact ⟨.sendbyte a, rfl, fun _ => he⟩
  · rintro ⟨i, hw, he⟩
    cases i with
    | init | write | clear => cases hw; simp [matchesCommandRow_fields]
    | bufpix | synccol | setreg | sendbyte => cases hw; simp [matchesCommandRow_fields, he rfl]
    | _ => cases hw

/-- Every row's mask covers the whole opcode, so a word that matches it has its opcode. -/
theorem op_of_matches {cw : CommandWord} {r : CommandRow} (hr : r ∈ commandRows) (h : cw &&& r.mask = r.pattern) :
    CommandWord.op cw = CommandWord.op r.pattern := by
  have hmask : ∀ r ∈ commandRows, CommandWord.op r.mask = 0xFF#8 := by decide
  rw [← h, (commandWord_and_fields cw r.mask).1, hmask r hr, byte_and_ff]

/-! ### The register map of format S (R87) -/

theorem frame_and_mask (f : Frame) : f &&& 0xFF00#16 = frameWord (Frame.addr f) 0x00#8 := by
  have hmask : (0xFF00#16 : Frame) = frameWord 0xFF#8 0x00#8 := by decide
  calc f &&& 0xFF00#16
      _ = frameWord (Frame.addr f) (Frame.data f) &&& frameWord 0xFF#8 0x00#8 := by rw [frameWord_of_fields, hmask]
      _ = frameWord (Frame.addr f &&& 0xFF#8) (Frame.data f &&& 0x00#8) := BitVec.and_append
      _ = frameWord (Frame.addr f) 0x00#8 := by rw [byte_and_ff, BitVec.and_zero]

/-- The map of format S compares the whole address byte and nothing else (R91). -/
theorem matchesFrameRow_eq_inMap (f : Frame) : matchesFrameRow f = Machine.inMap (Frame.addr f) := by
  have key : ∀ a : Byte, framePatterns.any (fun p => frameWord a 0x00#8 == p) = Machine.inMap a := by decide
  simp only [matchesFrameRow, frame_and_mask, key]

/-- A frame matches a row of the map exactly when it decodes, on every chip (R87, R90). -/
theorem matchesFrameRow_iff_decodes (expose : Bool) (k : Nat) (f : Frame) :
    matchesFrameRow f = true ↔ ∃ i, decode expose (.frame k f) = .ok i := by
  rw [matchesFrameRow_eq_inMap]
  constructor
  · intro hm
    obtain ⟨i, hi, hint⟩ := exists_encode_of_inMap k hm
    exact ⟨i, decode_ok_iff.mpr ⟨hi, by simp [hint]⟩⟩
  · rintro ⟨i, hi⟩
    by_contra hm
    simp [decode, decodeFrame_reserved k (eq_false_of_ne_true hm)] at hi

/-! ### The obligations of the encoding -/

/-- Settles O8, instruction by instruction (`decode_encode`). -/
theorem decodeInvertsEncode : Obligations.DecodeInvertsEncode :=
  fun _ => ⟨decode_encode fun _ => rfl, fun hi => decode_encode (by simp [hi])⟩

/-- Settles O9: matching an unhidden row and decoding both say that the word is an unhidden instruction's encoding; the
opcodes keep the rows apart. -/
theorem commandDecodeFollowsOpcodeMap : Obligations.CommandDecodeFollowsOpcodeMap := by
  refine ⟨fun expose cw => ?_, fun _ _ _ h => (decode_ok_iff.mp h).1, fun cw r r' hr hr' h h' => ?_⟩
  · simp only [matchesCommandRow_iff_encode, decode_ok_iff]
  · have apart : ∀ r ∈ commandRows, ∀ r' ∈ commandRows,
        CommandWord.op r.pattern = CommandWord.op r'.pattern → r = r' := by decide
    exact apart r hr r' hr' ((op_of_matches hr h).symm.trans (op_of_matches hr' h'))

/-- Settles O10: the map and the decoder both ask that the address byte is in the map. -/
theorem frameDecodeFollowsOpcodeMap : Obligations.FrameDecodeFollowsOpcodeMap :=
  ⟨matchesFrameRow_iff_decodes, fun _ _ _ _ h => (decode_ok_iff.mp h).1⟩

/-- Settles O11: whether an encoding decodes depends on EXPOSE_INTERNAL for an internal operation only. -/
theorem hiddenMicroOperationsAreReserved : Obligations.HiddenMicroOperationsAreReserved :=
  ⟨fun _ h => decode_hidden h, fun _ _ h hi => decode_ok_iff.mpr ⟨(decode_ok_iff.mp h).1, by simp [hi]⟩⟩

/-- Settles O7, by evaluating the decoder. -/
theorem sampleWordsDecode : Obligations.SampleWordsDecode := by
  unfold Obligations.SampleWordsDecode
  decide

end Sys2Proof

/-! SUPPORT. The step on each offer (30_encoding.md R84, R85, 44_chain_receiver.md R173): the offered word's instruction
run, or its refusal. -/

namespace Sys2Proof.Machine

theorem runWord_ok {w : CodeWord} {s : State} {i : Instr} (h : decode s.config.exposeInternal w = .ok i) :
    runWord w s = exec i s := by
  simp only [runWord, h]

theorem runWord_reservedCommand {cw : CommandWord} {s : State} {e : DecodeError}
    (h : decode s.config.exposeInternal (.command cw) = .error e) :
    runWord (.command cw) s = .refused (.reservedCommand e) := by
  simp only [runWord, h]

theorem runWord_reservedFrame {k : Nat} {f : Frame} {s : State} {e : DecodeError}
    (h : decode s.config.exposeInternal (.frame k f) = .error e) :
    runWord (.frame k f) s = .refused (.reservedFrame k (Frame.addr f)) := by
  simp only [runWord, h]

theorem step_of_nothing_offered {s : State} (h : s.host = []) : step s = .next s := by
  simp only [step, serve, h]

theorem step_of_command {s : State} {cw : CommandWord} {rest : List Input} (h : s.host = .command cw :: rest) :
    step s = runWord (.command cw) { s with host := rest } := by
  simp only [step, serve, h]

theorem step_of_chipLatch {s : State} {k : Nat} {rest : List Input} (h : s.host = .chipLatch k :: rest) :
    step s = runWord (.frame k (stage s.chain k)) { s with host := rest } := by
  simp only [step, serve, h]

/-- A word decodes by the table's numbering as a command word or as chain chip 0's frame (R80). -/
theorem decode_of_decodeTableWord {nbits w : Nat} {i : Instr} (h : decodeTableWord nbits w = some i) :
    (nbits = 32 ∧ decode true (.command (BitVec.ofNat 32 w)) = .ok i) ∨
    (nbits = 16 ∧ decode true (.frame 0 (BitVec.ofNat 16 w)) = .ok i) := by
  have ok_of_toOption : ∀ r : Except DecodeError Instr, r.toOption = some i → r = .ok i := by
    rintro (e | j) hr
    · cases hr
    · exact congrArg _ (Option.some.inj hr)
  unfold decodeTableWord at h
  split_ifs at h with _ h32 h16
  · exact .inl ⟨h32, ok_of_toOption _ h⟩
  · exact .inr ⟨h16, ok_of_toOption _ h⟩

/-- The frame placed in chain chip 0's stage is the one that stands there (10_state.md R29). -/
theorem stage_withStage0 (c : ChainWord) (f : Frame) : stage (withStage0 c f) 0 = f :=
  BitVec.extractLsb'_append_eq_right

/-- Settles O3, an offer a clause. -/
theorem stepRunsTheDecodedWord : Obligations.StepRunsTheDecodedWord :=
  ⟨fun _ _ _ _ hh hd => (step_of_command hh).trans (runWord_ok hd),
    fun _ _ _ _ hh hd => (step_of_chipLatch hh).trans (runWord_ok hd),
    fun _ _ _ _ hh hd => (step_of_command hh).trans (runWord_reservedCommand hd),
    fun _ _ _ _ hh hd => (step_of_chipLatch hh).trans (runWord_reservedFrame hd),
    fun _ hh => step_of_nothing_offered hh⟩

/-- Settles O4: a 32-bit word is placed as the next offer, a 16-bit word in the stage that latches next. -/
theorem placedWordIsRunNext : Obligations.PlacedWordIsRunNext := by
  intro s nbits w i hexp h
  obtain ⟨rfl, hd⟩ | ⟨rfl, hd⟩ := decode_of_decodeTableWord h
  · rw [← hexp] at hd
    exact (step_of_command rfl).trans (runWord_ok hd)
  · rw [← hexp, ← stage_withStage0 s.chain (BitVec.ofNat 16 w)] at hd
    exact (step_of_chipLatch rfl).trans (runWord_ok hd)

/-- Settles O12: a word that matches no row decodes to nothing (O9), so the step refuses it. -/
theorem reservedCommandWordIsRefused : Obligations.ReservedCommandWordIsRefused := by
  intro s cw rest hh hm
  cases hd : decode s.config.exposeInternal (.command cw) with
  | ok i =>
    have hmatch : matchesCommandRow s.config.exposeInternal cw = true :=
      (commandDecodeFollowsOpcodeMap.1 _ cw).mpr ⟨i, hd⟩
    simp [hm] at hmatch
  | error e => exact ⟨e, (step_of_command hh).trans (runWord_reservedCommand hd)⟩

end Sys2Proof.Machine

/-! SUPPORT. The serial link (40_serial_link.md R110 to R115): the state SENDBYTE leaves, the transitions of its events,
and the load line between commands. -/

namespace Sys2Proof.Machine

/-! ### The state SENDBYTE leaves -/

/-- SENDBYTE in phase Ready, from acceptance to its end (R110, R112, R115). -/
theorem exec_sendbyte_state {s : State} (hs : Ready s) (v : Byte) : exec (.sendbyte v) s = .next { s with
    log := (byteEvents v).reverse ++ s.log
    lines := { s.lines with clk := .high, data := levelOf (v.getLsbD 0) }
    chain := pushByte s.chain v
    work := Config.freeWork s.draws
    draws := s.draws + 1 } := by
  rw [exec_sendbyte hs, opSendByte_eq]
  obtain ⟨⟨hbusy, hseq, -⟩, -⟩ := hs
  simp only [finish, accept, hbusy, hseq]

/-! ### The events of a byte (R111) -/

theorem byteEvents_length (v : Byte) : (byteEvents v).length = 24 := rfl

/-- No event of a byte is a `CfgOut` or on the load line. -/
theorem byteEvents_on_clk_or_data {v : Byte} {e : Event} (h : e ∈ byteEvents v) :
    ∃ b, e = .setLine .clk b ∨ e = .setLine .data b := by
  obtain ⟨i, -, hi⟩ := List.mem_flatMap.mp h
  simp only [bitEvents, List.mem_cons, List.not_mem_nil, or_false] at hi
  obtain rfl | rfl | rfl := hi
  · exact ⟨false, .inl rfl⟩
  · exact ⟨v.getLsbD i, .inr rfl⟩
  · exact ⟨true, .inl rfl⟩

/-- The first event of a byte is a transition unless the clock was low: out of `U` too
(70_reset_and_hazards.md R241). -/
theorem byteEvents_transitions_head (v : Byte) {l : Config.PerPin Level} (h : l.clk ≠ .low) :
    (transitions l (byteEvents v)).head? = some (.setLine .clk false) := by
  simp [byteEvents, bitEvents, transitions, pinGet, h]

/-- Whether an event sets the data line. -/
def onData (e : Event) : Bool := e == .setLine .data true || e == .setLine .data false

/-- How many transitions the data line makes in a list of events (00_scope.md R12). -/
def dataTransitions (l : Config.PerPin Level) (es : List Event) : Nat := ((transitions l es).filter onData).length

theorem dataTransitions_clk (l : Config.PerPin Level) (hi : Bool) (es : List Event) :
    dataTransitions l (.setLine .clk hi :: es) = dataTransitions { l with clk := levelOf hi } es := by
  by_cases h : l.clk = levelOf hi <;> simp [dataTransitions, transitions, pinGet, pinSet, onData, h]

theorem dataTransitions_data (l : Config.PerPin Level) (b : Bool) (es : List Event) :
    dataTransitions l (.setLine .data b :: es) =
      (if l.data = levelOf b then 0 else 1) + dataTransitions { l with data := levelOf b } es := by
  have hdata : onData (.setLine .data b) = true := by cases b <;> rfl
  by_cases h : l.data = levelOf b <;> simp [dataTransitions, transitions, pinGet, pinSet, hdata, h, Nat.add_comm]

/-- At how many places consecutive levels differ, after a first level. -/
def levelChanges : Level → List Level → Nat
  | _, [] => 0
  | d, e :: es => (if d = e then 0 else 1) + levelChanges e es

/-- Bits sent change the data line where consecutive levels differ, and nowhere else: a bit's clock events leave it. -/
theorem dataTransitions_bits (v : Byte) (is : List Nat) (l : Config.PerPin Level) :
    dataTransitions l (is.flatMap (bitEvents v)) = levelChanges l.data (is.map fun i => levelOf (v.getLsbD i)) := by
  induction is generalizing l with
  | nil => rfl
  | cons i is ih =>
    simp only [List.flatMap_cons, bitEvents, List.cons_append, List.nil_append, dataTransitions_clk,
      dataTransitions_data, ih, List.map_cons, levelChanges]

/-- The changes of a byte's levels, counted by bit: bit 7 against the level before, every other bit against
the next higher. -/
theorem levelChanges_byte (v : Byte) (d : Level) :
    levelChanges d ([7, 6, 5, 4, 3, 2, 1, 0].map fun i => levelOf (v.getLsbD i)) = ((List.range 8).filter fun i =>
      (if i = 7 then d else levelOf (v.getLsbD (i + 1))) ≠ levelOf (v.getLsbD i)).length := by
  have hrange : List.range 8 = [0, 1, 2, 3, 4, 5, 6, 7] := rfl
  simp [← List.countP_eq_length_filter, hrange, List.countP_cons, levelChanges, Nat.add_assoc]

/-! ### The obligations -/

/-- Settles O21, by the state SENDBYTE leaves. -/
theorem sendByteShiftsOutTheValue : Obligations.SendByteShiftsOutTheValue :=
  fun v s hs => ⟨pushByte s.chain v, exec_sendbyte_state hs v, fun _ => rfl⟩

/-- Settles O48: the invariant says the load line is low, and the instruction keeps the invariant and phase Ready. -/
theorem loadLineIsLowBetweenCommands : Obligations.LoadLineIsLowBetweenCommands := by
  intro s t i hinv hready h
  have hready' : t.phase = .ready := by
    obtain ⟨-, hphase, -⟩ | ⟨-, -, hphase, -⟩ := exec_flag h
    · exact hphase.trans hready
    · exact hphase
  obtain ⟨-, -, -, hload, -⟩ := hinv.after hready
  obtain ⟨-, -, -, hload', -⟩ := (exec_keeps_blockInv hinv h).after hready'
  exact ⟨hload, hload'⟩

/-- Settles O22: SENDBYTE appends the byte's events, and each clause is a count over them. -/
theorem sendByteEdgeCounts : Obligations.SendByteEdgeCounts := by
  intro v s hs
  have hfall := byteEvents_fallingEdges v s.lines
  refine ⟨_, byteEvents v, exec_sendbyte_state hs v, ?_, rfl, byteEvents_length v, fun _ => byteEvents_on_clk_or_data,
    byteEvents_risingEdges v s.lines, fun hc => ?_, fun hc => ?_, fun hc => ?_, ?_⟩
  · simp [State.trace]
  · rw [hfall, if_pos hc]
  · rw [hfall, if_neg hc]
  · exact byteEvents_transitions_head v (by simp [hc])
  · exact (dataTransitions_bits v _ s.lines).trans (levelChanges_byte v s.lines.data)

end Sys2Proof.Machine

/-! SUPPORT. The register protocol (41_register_protocol.md R120 to R129): the state a transaction command leaves, with the
stages and the registers of the chips its frames reached. -/

namespace Sys2Proof.Machine

/-! ### The state a transaction command leaves -/

/-- A transaction in phase Ready, from acceptance to its end (R121, R129). -/
theorem finish_transacted {s : State} (hs : Ready s) (f0 f1 f2 f3 : Byte × Byte) :
    finish (transacted f0 f1 f2 f3 (accept s)) = { s with
      log := (transactionEvents [f0, f1, f2, f3]).reverse ++ s.log
      lines := { data := levelOf (f3.2.getLsbD 0), clk := .high, load := .low }
      chain := chainOf (frameWord f0.1 f0.2) (frameWord f1.1 f1.2) (frameWord f2.1 f2.2) (frameWord f3.1 f3.2)
      regs := (finish (transacted f0 f1 f2 f3 (accept s))).regs
      work := Config.freeWork s.draws
      draws := s.draws + 1 } := by
  obtain ⟨⟨hbusy, hseq, -⟩, -⟩ := hs
  simp only [finish, transacted, accept, hbusy, hseq]

theorem transactionEvents_length (f0 f1 f2 f3 : Byte × Byte) : (transactionEvents [f0, f1, f2, f3]).length = 195 := by
  simp only [transactionEvents, frameEvents, List.flatMap_cons, List.flatMap_nil, List.length_cons, List.length_append,
    List.length_nil, byteEvents_length]

/-! ### The stages: the frame sent first stands in the last chip (R58) -/

theorem stage_broadcastChain (reg data : Byte) {k : Nat} (hk : k < 4) :
    stage (broadcastChain reg data) k = frameWord reg data :=
  forall_chip (P := fun k _ => stage (broadcastChain reg data) k = frameWord reg data)
    (stage_chainOf_0 ..) (stage_chainOf_1 ..) (stage_chainOf_2 ..) (stage_chainOf_3 ..) k hk

theorem stage_columnChain (col : Byte) (buf : Memory) {k : Nat} (hk : k < 4) :
    stage (columnChain col buf) k = frameWord (digitAddr col) (buf.read (syncIndex col (3 - k))) :=
  forall_chip (P := fun k _ => stage (columnChain col buf) k =
      frameWord (digitAddr col) (buf.read (syncIndex col (3 - k))))
    (stage_chainOf_0 ..) (stage_chainOf_1 ..) (stage_chainOf_2 ..) (stage_chainOf_3 ..) k hk

/-- An address of the map other than NOOP's is a storing register's (R31). -/
theorem ofCode_isSome_of_inMap {a : Byte} (h : inMap a = true) (h0 : a ≠ 0x00#8) : (RegAddr.ofCode a).isSome = true := by
  simpa [inMap, h0] using h

/-! ### The obligations -/

/-- Settles O23: every stage holds the pair, so every chip executes it. -/
theorem setRegBroadcastsOnePair : Obligations.SetRegBroadcastsOnePair := by
  intro reg data s hs hm
  have hreg := fun k (hk : k < 4) => regAt_applied (s := s) hk (transacted_broadcast_reg (reg, data) (accept s) k hk)
  exact ⟨_, exec_setreg hs data hm, finish_transacted hs .., fun k hk => stage_broadcastChain reg data hk,
    fun k hk a ha => (hreg k hk a).trans (if_neg ha),
    fun h0 k hk => ((hreg k hk reg).trans (if_pos rfl)).trans (map_const_some (ofCode_isSome_of_inMap hm h0) data),
    transactionEvents_length ..⟩

/-- Settles O24: chip `k`'s stage holds module `3 - k`'s byte of the column, so the chip stores it. -/
theorem syncColSendsTheColumn : Obligations.SyncColSendsTheColumn := by
  intro col s hs hb hc b a
  have hreg := fun k (hk : k < 4) => regAt_column (s := s) hk hc (transacted_column_reg col s.buf (accept s) k hk)
  exact ⟨_, exec_synccol hs hb hc, finish_transacted hs ..,
    fun k hk => ⟨stage_columnChain col s.buf hk, (hreg k hk a).trans (if_pos rfl)⟩,
    fun k hk a' ha => (hreg k hk a').trans (if_neg ha),
    mirrored_finish.mpr (mirrored_transacted_column hc (.inl rfl)), transactionEvents_length ..⟩

end Sys2Proof.Machine

/-! SUPPORT. The display buffer and the mapper (42_buffer_mapper.md R140 to R147): the mapper's arithmetic, the buffer
with one pixel written, and the display column by column inside a CLEAR. -/

namespace Sys2Proof.Machine

/-! ### The mapper's arithmetic (R141) -/

/-- Masking off the low three bits rounds down to a multiple of 8. -/
theorem and_f8_toNat (y : Byte) : (y &&& 0xF8#8).toNat = 8 * (y.toNat / 8) := by
  have hmask : 0xF8#8 = BitVec.allOnes 8 <<< 3 := rfl
  have hy := y.isLt
  rw [hmask, ← BitVec.shiftLeft_ushiftRight, BitVec.toNat_shiftLeft, BitVec.toNat_ushiftRight, Nat.shiftLeft_eq,
    Nat.shiftRight_eq_div_pow]
  omega

theorem one_shiftLeft_eq_msb_shiftRight {k : Nat} (h : k < 8) : 1#8 <<< (7 - k) = 0x80#8 >>> k := by
  have key : ∀ k, k < 8 → 1#8 <<< (7 - k) = 0x80#8 >>> k := by decide
  exact key k h

/-- Settles O28: `y &&& 0xF8` is `8 * (y / 8)`, whose low three bits are free for `x`. -/
theorem mapperArithmeticAsBits : Obligations.MapperArithmeticAsBits := by
  intro x y hx
  have hor : 8 * (y.toNat / 8) ||| x.toNat = 8 * (y.toNat / 8) + x.toNat :=
    (Nat.two_pow_add_eq_or_of_lt (i := 3) hx _).symm
  refine ⟨?_, ?_, ?_, ?_, one_shiftLeft_eq_msb_shiftRight (Nat.mod_lt _ (by decide)), ?_⟩
  · rw [BitVec.toNat_or, and_f8_toNat, hor, index, Nat.add_comm]
  · rw [and_f8_toNat, index]
  · simp [Nat.shiftRight_eq_div_pow]
  · simp [bitpos]
  · simp only [index]
    omega

/-! ### One pixel of the buffer -/

/-- The buffer after BUFPIX (R140). -/
def writePixel (x y v : Byte) (m : Memory) : Memory :=
  m.write (index x y) (pixelByte (m.read (index x y)) (mask y) v)

theorem writePixel_wf {m : Memory} (hw : m.wf = true) {x y : Byte} (v : Byte) (h : ValidPixel x y) :
    (writePixel x y v m).wf = true :=
  Memory.wf_write hw _ (index_lt h.inRange)

theorem read_writePixel {m : Memory} (hw : m.wf = true) (x y v : Byte) (j : Nat) : (writePixel x y v m).read j =
    if j = index x y then pixelByte (m.read (index x y)) (mask y) v else m.read j :=
  Memory.read_write hw _ _ j

theorem pixelBit_writePixel {m : Memory} (hw : m.wf = true) {x y x' y' : Byte} (v : Byte) (h : ValidPixel x y)
    (h' : ValidPixel x' y') :
    pixelBit (writePixel x y v m) x' y' = if x' = x ∧ y' = y then decide (v ≠ 0#8) else pixelBit m x' y' :=
  pixelBit_write hw v h h'

/-- The last of two writes of a pixel wins (R142). -/
theorem writePixel_writePixel {m : Memory} (hw : m.wf = true) {x y : Byte} (v w : Byte) (h : ValidPixel x y) :
    writePixel x y w (writePixel x y v m) = writePixel x y w m := by
  have hw' := writePixel_wf hw v h
  refine Memory.ext_pixels (writePixel_wf hw' w h) (writePixel_wf hw w h) fun x' y' h' => ?_
  rw [pixelBit_writePixel hw' w h h', pixelBit_writePixel hw w h h', pixelBit_writePixel hw v h h']
  split <;> rfl

/-- Writes of different pixels commute (R142). -/
theorem writePixel_comm {m : Memory} (hw : m.wf = true) {x y x' y' : Byte} (v w : Byte) (h : ValidPixel x y)
    (h' : ValidPixel x' y') (hne : ¬ (x' = x ∧ y' = y)) :
    writePixel x' y' w (writePixel x y v m) = writePixel x y v (writePixel x' y' w m) := by
  have hw1 := writePixel_wf hw v h
  have hw2 := writePixel_wf hw w h'
  refine Memory.ext_pixels (writePixel_wf hw1 w h') (writePixel_wf hw2 v h) fun a b hab => ?_
  rw [pixelBit_writePixel hw1 w h' hab, pixelBit_writePixel hw v h hab, pixelBit_writePixel hw2 v h hab,
    pixelBit_writePixel hw w h' hab]
  by_cases hv : a = x ∧ b = y
  · have hv' : ¬ (a = x' ∧ b = y') := by
      rintro ⟨rfl, rfl⟩
      exact hne hv
    rw [if_neg hv', if_pos hv, if_pos hv]
  · rw [if_neg hv, if_neg hv]

/-- Writing a pixel leaves its byte exactly when the pixel already has the value. -/
theorem pixelByte_eq_self_iff {b y v : Byte} :
    pixelByte b (mask y) v = b ↔ b.getLsbD (bitpos y) = decide (v ≠ 0#8) := by
  constructor
  · intro h
    have hbit := pixelByte_bit b v y (bitpos y) (bitpos_lt y)
    rwa [if_pos rfl, h] at hbit
  · intro h
    refine BitVec.eq_of_getLsbD_eq fun i hi => ?_
    rw [pixelByte_bit b v y i hi]
    split
    · next hip => rw [hip, h]
    · rfl

/-- BUFPIX in phase Ready, from acceptance to its end (R140). -/
theorem exec_bufpix_state {s : State} (hs : Ready s) (hb : s.bufOk = true) {x y : Byte} (v : Byte)
    (h : ValidPixel x y) : exec (.bufpix x y v) s = .next { s with
      buf := writePixel x y v s.buf
      work := Config.freeWork s.draws
      draws := s.draws + 1 } := by
  rw [exec_bufpix hs hb v h.inRange]
  obtain ⟨⟨hbusy, hseq, -⟩, -⟩ := hs
  simp only [finish, accept, hbusy, hseq, writePixel]

/-- Settles O29, by the state BUFPIX leaves and the reading of its buffer. -/
theorem bufPixChangesOneByte : Obligations.BufPixChangesOneByte := by
  intro x y v s hs hb hw hx hy i m
  have hv : ValidPixel x y := ⟨hx, hy⟩
  exact ⟨_, exec_bufpix_state hs hb v hv, rfl, writePixel_wf hw v hv,
    (read_writePixel hw x y v i).trans (if_pos rfl), fun j hj => (read_writePixel hw x y v j).trans (if_neg hj)⟩

/-- Settles O30: each law is one of `writePixel`. -/
theorem bufPixLaws : Obligations.BufPixLaws := by
  intro x y v1 v2 s t hs hb hw hv ht
  have hready := exec_keeps_ready hs ht
  obtain rfl := next_unique (exec_bufpix_state hs hb v1 hv) ht
  have hlast := fun v => writePixel_writePixel hw v1 v hv
  have hother : ∀ {x' y' : Byte}, x' ≠ x ∨ y' ≠ y → ¬ (x' = x ∧ y' = y) := not_and_or.mpr
  refine ⟨⟨?_, fun x' y' hv' hne => ?_⟩, ⟨_, exec_bufpix_state hready hb v1 hv, hlast v1⟩,
    ⟨_, _, exec_bufpix_state hready hb v2 hv, exec_bufpix_state hs hb v2 hv, hlast v2⟩, fun x' y' hv' hne => ?_,
    fun _ => ⟨_, exec_bufpix_state hready hb 0#8 hv, ?_⟩⟩
  · exact (pixelBit_writePixel hw v1 hv hv).trans (if_pos ⟨rfl, rfl⟩)
  · exact (pixelBit_writePixel hw v1 hv hv').trans (if_neg (hother hne))
  · have hw' := exec_bufpix_state hs hb v2 hv'
    exact ⟨_, _, _, exec_bufpix_state hready hb v2 hv', hw', exec_bufpix_state (exec_keeps_ready hs hw') hb v1 hv,
      writePixel_comm hw v1 v2 hv hv' (hother hne)⟩
  · have hread : (writePixel x y 0#8 (writePixel x y v1 s.buf)).read (index x y) =
        pixelByte (s.buf.read (index x y)) (mask y) 0#8 := by
      rw [hlast 0#8, read_writePixel hw, if_pos rfl]
    exact ⟨hread, by rw [hread]; exact pixelByte_eq_self_iff⟩

/-! ### WRITE -/

/-- Settles O31: WRITE is a pixel's byte, then SYNCCOL's transaction of the column over the new buffer. -/
theorem writeSetsPixelAndRepaintsColumn : Obligations.WriteSetsPixelAndRepaintsColumn := by
  intro x y v s hs hb hw hx hy i m a
  have hv : ValidPixel x y := ⟨hx, hy⟩
  let u : State := { s with buf := writePixel x y v s.buf }
  have hreg := fun k (hk : k < 4) => regAt_column (s := s) hk hx (transacted_column_reg x u.buf (accept u) k hk)
  exact ⟨_, exec_write hs hb v hv.inRange _ rfl, finish_transacted (s := u) hs .., writePixel_wf hw v hv,
    (read_writePixel hw x y v i).trans (if_pos rfl), fun j hj => (read_writePixel hw x y v j).trans (if_neg hj),
    fun k hk => (hreg k hk a).trans (if_pos rfl), fun k hk a' ha => (hreg k hk a').trans (if_neg ha)⟩

/-! ### CLEAR -/

/-- CLEAR's transactions by digit address: 8 down to 1 (R146, 92 D21). -/
theorem clearEvents_eq : clearEvents = [8#8, 7#8, 6#8, 5#8, 4#8, 3#8, 2#8, 1#8].flatMap
    (fun a => transactionEvents [(a, 0#8), (a, 0#8), (a, 0#8), (a, 0#8)]) := by
  have haddr : [8#8, 7#8, 6#8, 5#8, 4#8, 3#8, 2#8, 1#8] = columns.map digitAddr := rfl
  rw [haddr, List.flatMap_map]
  rfl

/-- The chips after CLEAR, read by address. -/
theorem regAt_map_darkRegs {s t : State} (ht : t.regs = s.regs.map darkRegs) {k : Nat} (hk : k < 4) (a : Byte) :
    regAt t k a = (RegAddr.ofCode a).map fun r => (darkRegs s.regs[k]).read r := by
  simp only [regAt_eq hk, ht, Vector.getElem_map]

/-- Settles O32, by the state CLEAR leaves. -/
theorem clearZeroesBufferAndDisplay : Obligations.ClearZeroesBufferAndDisplay := by
  intro s hs hb hw
  refine ⟨_, exec_clear hs hb hw, ?_, Memory.read_nil, fun k hk => ⟨fun a h1 h8 => ?_, fun a h8 => ?_⟩⟩
  · rw [← clearEvents_eq]
    rfl
  · exact (regAt_map_darkRegs rfl hk a).trans (darkRegs_digit _ h1 h8)
  · exact ((regAt_map_darkRegs rfl hk a).trans (darkRegs_other _ h8)).trans (regAt_eq hk a).symm

theorem syncColumns_append (cs ds : List Byte) (s : State) :
    syncColumns (cs ++ ds) s = andThen (syncColumns cs s) (syncColumns ds) := by
  induction cs generalizing s with
  | nil => rfl
  | cons c cs ih =>
    rw [List.cons_append, syncColumns, syncColumns, andThen_assoc]
    exact congrArg (andThen _) (funext ih)

/-- CLEAR of a canonical buffer is the zero-fill, then any part of its columns, then the rest of them. -/
theorem opClear_split {s : State} (hb : s.bufOk = true) (hw : s.buf.wf = true) (j : Nat) : opClear s =
    andThen (syncColumns (columns.take j) { s with buf := [] }) (syncColumns (columns.drop j)) := by
  have hi : clearIgnored s = false := by simp [clearIgnored, noBuffer, hb]
  rw [← syncColumns_append, List.take_append_drop, opClear, hi, zeroFill_eq s hb hw]
  rfl

/-- The state after SYNCCOL of columns of an empty buffer, in order (`syncColumns_fold`). -/
def darkColumns (cs : List Byte) (s : State) : State := cs.foldl (fun t c => darkColumn c t) s

theorem darkColumns_buf (cs : List Byte) (s : State) : (darkColumns cs s).buf = s.buf := by
  induction cs generalizing s with
  | nil => rfl
  | cons c cs ih => exact (ih (darkColumn c s)).trans (darkColumn_buf c s)

theorem regAt_darkColumn {c : Byte} (hc : c.toNat < 8) (s : State) {k : Nat} (hk : k < 4) (a : Byte) :
    regAt (darkColumn c s) k a = if a = digitAddr c then some 0#8 else regAt s k a :=
  regAt_column hk hc (by simp only [darkColumn_regs, Vector.getElem_map]) a

/-- The columns sent are dark on every chip, the others as before. -/
theorem regAt_darkColumns {cs : List Byte} (hcs : ∀ c ∈ cs, c.toNat < 8) (s : State) {k : Nat} (hk : k < 4)
    (col : Byte) : regAt (darkColumns cs s) k (digitAddr col) =
      if col ∈ cs then some 0#8 else regAt s k (digitAddr col) := by
  induction cs generalizing s with
  | nil => rfl
  | cons c cs ih =>
    have hc : c.toNat < 8 := hcs c List.mem_cons_self
    have hrest := ih (fun d hd => hcs d (List.mem_cons_of_mem c hd)) (darkColumn c s)
    refine hrest.trans ?_
    rw [regAt_darkColumn hc s hk]
    by_cases hmem : col ∈ cs
    · simp [hmem]
    · by_cases hcol : col = c
      · simp [hcol]
      · have haddr : digitAddr col ≠ digitAddr c := fun h => hcol (digitAddr_inj h)
        simp [hmem, hcol, haddr]

/-- The first `j` columns are those below `j` (R146). -/
theorem mem_take_columns {j : Nat} (hj : j ≤ 8) {col : Byte} (h : col ∈ columns) :
    col ∈ columns.take j ↔ col.toNat < j := by
  have key : ∀ j, j ≤ 8 → columns.take j = columns.filter (fun c => decide (c.toNat < j)) := by decide
  rw [key j hj, List.mem_filter, decide_eq_true_iff, and_iff_right h]

/-- Settles O33: CLEAR splits after its first `j` columns, which the chips show dark. -/
theorem clearDarkensColumnsInOrder : Obligations.ClearDarkensColumnsInOrder := by
  intro s j hb hw hj
  have hvalid : ∀ c ∈ columns, c.toNat < 8 := by decide
  have hcols : ∀ c ∈ columns.take j, c.toNat < 8 := fun c hc => hvalid c (List.mem_of_mem_take hc)
  have hsync : syncColumns (columns.take j) { s with buf := [] } =
      .next (darkColumns (columns.take j) { s with buf := [] }) := syncColumns_fold _ hcols _ hb rfl
  refine ⟨_, ?_, ?_, darkColumns_buf (columns.take j) { s with buf := [] }, fun k col hk hcol => ?_⟩
  · rw [zeroFill_eq s hb hw]
    exact hsync
  · rw [opClear_split hb hw j, hsync]
    rfl
  · have hreg := regAt_darkColumns hcols { s with buf := [] } hk col
    have hmem := mem_take_columns hj hcol
    exact ⟨fun hlt => hreg.trans (if_pos (hmem.mpr hlt)),
      fun hge => hreg.trans (if_neg fun h => Nat.not_lt.mpr hge (hmem.mp h))⟩

end Sys2Proof.Machine

/-! SUPPORT. INIT and the phase (43_init_sequence.md R160 to R165): which commands the phase and the pins let run, the
events of INIT as a list of transactions, and the chips and commands after it. -/

namespace Sys2Proof.Machine

/-! ### The guard of a command (R164) -/

/-- Every command stands behind the guard `command`; other than INIT it is legal in phase Ready only. -/
theorem exec_eq_command {i : Instr} (hi : i.isCommand = true) :
    ∃ legal ign op, exec i = command legal ign op ∧ (i ≠ .init → legal = .ready) := by
  cases i with
  | init => exact ⟨.preInit, neverIgnored, opInit, rfl, fun h => absurd rfl h⟩
  | write x y v => exact ⟨.ready, pixelIgnored x y, opWrite x y v, rfl, fun _ => rfl⟩
  | clear => exact ⟨.ready, clearIgnored, opClear, rfl, fun _ => rfl⟩
  | bufpix x y v => exact ⟨.ready, pixelIgnored x y, opBufPix x y v, rfl, fun _ => rfl⟩
  | synccol c => exact ⟨.ready, syncIgnored c, opSyncCol c, rfl, fun _ => rfl⟩
  | setreg r d => exact ⟨.ready, neverIgnored, opSetReg r d, rfl, fun _ => rfl⟩
  | sendbyte v => exact ⟨.ready, neverIgnored, fun t => .next (opSendByte v t), rfl, fun _ => rfl⟩
  | _ => cases hi

theorem command_wrongPhase {legal : Phase} (ign : State → Bool) (op : State → Result) {s : State} (hs : Idle s)
    (hp : s.phase ≠ legal) : command legal ign op s = .refused (wrongPhase s.phase) := by
  obtain ⟨hbusy, -, hpins⟩ := hs
  simp [command, hbusy, hpins, hp]

theorem exec_init_completes {s : State} (hs : Fresh s) : ∃ t, exec .init s = .next t ∧ t.phase = .ready := by
  cases ha : s.config.allocOk
  · exact ⟨_, exec_init_unallocated hs ha, rfl⟩
  · exact ⟨_, exec_init_allocated hs ha, rfl⟩

theorem exec_phase_ready {i : Instr} {s t : State} (hp : s.phase = .ready) (h : exec i s = .next t) :
    t.phase = .ready := by
  obtain ⟨-, hphase, -⟩ | ⟨-, -, hphase, -⟩ := exec_flag h
  · exact hphase.trans hp
  · exact hphase

/-! ### The events of INIT (R160, R161) -/

theorem trace_of_log {s t : State} {es : List Event} (h : t.log = es.reverse ++ s.log) : t.trace = s.trace ++ es := by
  simp [State.trace, h]

/-- CLEAR's transactions as pairs sent to every chip, `clearEvents_eq` with the data byte beside the address. -/
theorem clearEvents_eq_pairs : clearEvents = [(8#8, 0#8), (7#8, 0#8), (6#8, 0#8), (5#8, 0#8), (4#8, 0#8), (3#8, 0#8),
    (2#8, 0#8), (1#8, 0#8)].flatMap (fun p => transactionEvents [p, p, p, p]) :=
  clearEvents_eq

/-- INIT's configuration transactions, with the bytes of R162. -/
theorem configEvents_eq_pairs (c : Config.Params) : configEvents c = [(0x0A#8, c.intensityLevel.setWidth 8),
    (0x0B#8, 0x07#8), (0x0C#8, 0x01#8), (0x09#8, 0x00#8), (0x0F#8, 0x00#8)].flatMap
      (fun p => transactionEvents [p, p, p, p]) :=
  rfl

theorem initEvents_allocated {c : Config.Params} (ha : c.allocOk = true) : initEvents c =
    [.cfgOut .data, .cfgOut .clk, .cfgOut .load] ++ (clearEvents ++ configEvents c) := by
  simp only [initEvents, ha, if_true]

/-- Without a buffer INIT's CLEAR is ignored (R163). -/
theorem initEvents_unallocated {c : Config.Params} (ha : c.allocOk = false) : initEvents c =
    [.cfgOut .data, .cfgOut .clk, .cfgOut .load] ++ configEvents c := by
  simp only [initEvents, ha, Bool.false_eq_true, if_false, List.nil_append]

/-! ### The chips after INIT (R165) -/

section
variable {t : State} {c : Config.Params} {r : Vector ChipRegs 4} {k : Nat}

/-- The chips after INIT's configuration writes over the register files `r`, read by address. -/
theorem regAt_map_configuredRegs (ht : t.regs = r.map (configuredRegs c)) (hk : k < 4) (a : Byte) :
    regAt t k a = (RegAddr.ofCode a).map fun x => (configuredRegs c r[k]).read x := by
  simp only [regAt_eq hk, ht, Vector.getElem_map]

/-- The five configuration registers hold INIT's bytes (R162, R165). -/
theorem regAt_config_of_configured (ht : t.regs = r.map (configuredRegs c)) (hk : k < 4) :
    regAt t k 0x09#8 = some 0x00#8 ∧ regAt t k 0x0A#8 = some (c.intensityLevel.setWidth 8) ∧
      regAt t k 0x0B#8 = some 0x07#8 ∧ regAt t k 0x0C#8 = some 0x01#8 ∧ regAt t k 0x0F#8 = some 0x00#8 :=
  have hreg := regAt_map_configuredRegs ht hk
  ⟨hreg _, hreg _, hreg _, hreg _, hreg _⟩

/-- The digit registers are none of the five. -/
theorem regAt_digit_of_configured (ht : t.regs = r.map (configuredRegs c)) (hk : k < 4) {a : Byte} (h1 : 1 ≤ a.toNat)
    (h8 : a.toNat ≤ 8) : regAt t k a = (RegAddr.ofCode a).map fun x => r[k].read x :=
  (regAt_map_configuredRegs ht hk a).trans (configuredRegs_digit c _ h1 h8)

/-- INIT's CLEAR leaves the digit registers dark and its configuration writes keep them so. -/
theorem regAt_digit_of_dark_configured (ht : t.regs = (r.map darkRegs).map (configuredRegs c)) (hk : k < 4) {a : Byte}
    (h1 : 1 ≤ a.toNat) (h8 : a.toNat ≤ 8) : regAt t k a = some 0#8 := by
  rw [regAt_digit_of_configured ht hk h1 h8]
  simp only [Vector.getElem_map]
  exact darkRegs_digit _ h1 h8
end

/-- The digit addresses are 1 to 8 (10_state.md R32). -/
theorem digitAddr_range {col : Byte} (h : col.toNat < 8) : 1 ≤ (digitAddr col).toNat ∧ (digitAddr col).toNat ≤ 8 := by
  simp only [digitAddr]
  bv_omega

/-! ### The public commands without a buffer (60_exceptions.md R202) -/

theorem exec_public_ignored {s : State} (hs : Ready s) (hb : s.bufOk = false) (op : PublicOp) :
    exec op.instr s = .next s := by
  cases op with
  | write x y v => exact (exec_pixel_ignored hs v (by simp [pixelIgnored, noBuffer, hb])).1
  | clear => exact exec_clear_ignored hs hb

theorem runAll_public_ignored {s : State} (hs : Ready s) (hb : s.bufOk = false) (ops : List PublicOp) :
    runAll (ops.map PublicOp.instr) s = .next s := by
  induction ops with
  | nil => rfl
  | cons op ops ih => rw [List.map_cons, runAll, exec_public_ignored hs hb op, andThen_next, ih]

/-! ### The obligations -/

/-- Settles O5, by the guard every command has (`exec_eq_command`); in phase Ready by what an instruction can answer
there (`exec_ready`). -/
theorem commandLegalityByPhase : Obligations.CommandLegalityByPhase := by
  refine ⟨fun s i hs hi hne => ?_, fun s hs => exec_init_completes hs, fun s hs => ?_, fun s i hs hne => ?_,
    fun s t i hp h => exec_phase_ready hp h, fun s i hi hbusy hpins => ?_⟩
  · obtain ⟨hidle, hphase⟩ := hs
    obtain ⟨legal, ign, op, hexec, hlegal⟩ := exec_eq_command hi
    have hwrong : s.phase ≠ legal := by simp [hlegal hne, hphase]
    rw [hexec, command_wrongPhase ign op hidle hwrong, hphase]
    rfl
  · obtain ⟨hidle, hphase⟩ := hs
    have hwrong : s.phase ≠ .preInit := by simp [hphase]
    refine (command_wrongPhase neverIgnored opInit hidle hwrong).trans ?_
    rw [hphase]
    rfl
  · obtain ⟨t, h⟩ | ⟨k, -, h⟩ | ⟨r, d, -, -, h⟩ := exec_ready hs i hne <;> simp [h]
  · obtain ⟨legal, ign, op, hexec, -⟩ := exec_eq_command hi
    rw [hexec, command_equalPins legal ign op s hbusy (pinsDistinct_false.mpr hpins)]

/-- Settles O37: the buffer is dark and so are the digit registers, hence every column is mirrored. -/
theorem initEstablishesTheReadyState : Obligations.InitEstablishesTheReadyState := by
  intro s hs ha
  refine ⟨_, exec_init_allocated hs ha, rfl, Memory.read_nil, fun k hk => ⟨fun a h1 h8 => ?_, ?_⟩, fun c hc m _ => ?_⟩
  · exact regAt_digit_of_dark_configured rfl hk h1 h8
  · exact regAt_config_of_configured rfl hk
  · obtain ⟨h1, h8⟩ := digitAddr_range hc
    exact regAt_digit_of_dark_configured rfl (chipOfModule_lt m) h1 h8

/-- Settles O39: INIT only configures (`initEvents_unallocated`), and without a buffer every public command is ignored. -/
theorem initWithoutBufferStillConfigures : Obligations.InitWithoutBufferStillConfigures := by
  intro s hs ha
  refine ⟨_, exec_init_unallocated hs ha, rfl, ?_, fun k hk => ⟨fun a h1 h8 => ?_, ?_⟩, fun ops => ?_⟩
  · rw [List.append_assoc, ← configEvents_eq_pairs, ← initEvents_unallocated ha]
    exact trace_of_log rfl
  · exact (regAt_digit_of_configured rfl hk h1 h8).trans (regAt_eq hk a).symm
  · exact regAt_config_of_configured rfl hk
  · obtain ⟨hidle, -⟩ := hs
    refine runAll_public_ignored ?_ rfl ops
    exact ⟨hidle, rfl⟩

/-- Settles O38, by the events of INIT's CLEAR and of its configuration writes as pairs. -/
theorem initEventOrder : Obligations.InitEventOrder := by
  intro s hs ha
  refine ⟨_, exec_init_allocated hs ha, (trace_of_log rfl).trans ?_⟩
  rw [initEvents_allocated ha, clearEvents_eq_pairs, configEvents_eq_pairs, ← List.flatMap_append, List.append_assoc]
  rfl

end Sys2Proof.Machine

/-! SUPPORT. The display (44_chain_receiver.md R189, R193): what it reads of a chip, the mode registers it rests on, and
what the public commands keep so that it goes on showing the buffer. -/

namespace Sys2Proof.Machine

/-! ### The display function (R189) -/

/-- `lit` by the chip that drives the pixel's module; every module has one. -/
theorem lit_eq (x y : Byte) (s : State) : lit x y s =
    if coordOutOfRange x y then none
    else if inNormalMode (s.regs[chipOfModule (moduleOf y)]'(chipOfModule_lt _)) then
      (regAt s (chipOfModule (moduleOf y)) (digitAddr x)).map (fun b => b.getLsbD (bitpos y))
    else none := by
  simp only [lit, chipOfModule_lt, dif_pos]

section
variable {x y : Byte} {s : State}

/-- In INIT's configuration the display shows a bit of the column's digit register. -/
theorem lit_of_normal (hv : ValidPixel x y)
    (hn : inNormalMode (s.regs[chipOfModule (moduleOf y)]'(chipOfModule_lt _)) = true) {b : Byte}
    (hb : regAt s (chipOfModule (moduleOf y)) (digitAddr x) = some b) : lit x y s = some (b.getLsbD (bitpos y)) := by
  rw [lit_eq, hv.inRange, hn, hb]
  rfl

/-- In any other configuration it has no value, at any coordinate (log 23). -/
theorem lit_of_not_normal
    (hn : inNormalMode (s.regs[chipOfModule (moduleOf y)]'(chipOfModule_lt _)) = false) : lit x y s = none := by
  rw [lit_eq, hn]
  simp

/-- A mirrored column in INIT's configuration shows the buffer. -/
theorem lit_of_mirrored (hv : ValidPixel x y)
    (hn : inNormalMode (s.regs[chipOfModule (moduleOf y)]'(chipOfModule_lt _)) = true) (hm : mirrored x s) :
    lit x y s = some (pixelBit s.buf x y) := by
  have hy := hv.2
  have hmod : moduleOf y < Config.numChips := by
    simp only [moduleOf, Config.numChips]
    omega
  exact lit_of_normal hv hn (hm _ hmod)

end

/-- The digit register of a valid column always holds a byte. -/
theorem regAt_digit_some (s : State) {k : Nat} (hk : k < 4) {x : Byte} (hx : x.toNat < 8) :
    ∃ b, regAt s k (digitAddr x) = some b := by
  obtain ⟨a, ha⟩ := Option.isSome_iff_exists.mp (ofCode_digitAddr hx)
  exact ⟨s.regs[k].read a, by rw [regAt_eq hk, ha, Option.map_some]⟩

/-- Settles O52: `lit` in INIT's configuration, where the column is mirrored, and in any other configuration. -/
theorem displayShowsTheDigitRegisters : Obligations.DisplayShowsTheDigitRegisters := by
  intro s x y hv
  have hk : chipOfModule (moduleOf y) < 4 := chipOfModule_lt _
  refine ⟨hk, fun hn => ?_, lit_of_not_normal⟩
  obtain ⟨b, hb⟩ := regAt_digit_some s hk hv.1
  exact ⟨b, hb, lit_of_normal hv hn hb, lit_of_mirrored hv hn⟩

/-! ### The mode registers -/

/-- The registers `inNormalMode` reads (R189). -/
def RegAddr.isMode : RegAddr → Bool
  | .decode | .scanLimit | .shutdown | .dispTest => true
  | _ => false

theorem inNormalMode_write_other (r : ChipRegs) {a : RegAddr} (ha : a.isMode = false) (d : Byte) :
    inNormalMode (r.write a d) = inNormalMode r := by
  cases a with
  | decode | scanLimit | shutdown | dispTest => cases ha
  | _ => rfl

theorem applyFrame_code (a : RegAddr) (d : Byte) (r : ChipRegs) : applyFrame a.code d r = r.write a d := by
  rw [applyFrame, RegAddr.ofCode_code]

/-- A digit register is no mode register (10_state.md R32). -/
theorem isMode_of_digitAddr {c : Byte} (hc : c.toNat < 8) {a : RegAddr} (h : digitAddr c = a.code) :
    a.isMode = false := by
  have hrange := digitAddr_range hc
  rw [h] at hrange
  cases a with
  | decode | scanLimit | shutdown | dispTest => exact absurd hrange (by decide)
  | _ => rfl

theorem inNormalMode_column {c : Byte} (hc : c.toNat < 8) (d : Byte) (r : ChipRegs) :
    inNormalMode (applyFrame (digitAddr c) d r) = inNormalMode r := by
  obtain ⟨a, ha⟩ := Option.isSome_iff_exists.mp (ofCode_digitAddr hc)
  have hcode := RegAddr.code_of_ofCode ha
  rw [hcode, applyFrame_code, inNormalMode_write_other r (isMode_of_digitAddr hc hcode)]

theorem inNormalMode_darkRegs (r : ChipRegs) : inNormalMode (darkRegs r) = inNormalMode r := rfl

theorem inNormalMode_configuredRegs (c : Config.Params) (r : ChipRegs) : inNormalMode (configuredRegs c r) = true := rfl

/-! ### The public commands (R193) -/

/-- The buffer after a public command: an invalid WRITE changes nothing (60_exceptions.md R201). -/
def bufAfter : PublicOp → Memory → Memory
  | .write x y v, m => if coordOutOfRange x y then m else writePixel x y v m
  | .clear, _ => []

/-- The invariant R193 rests on: with a buffer after INIT, every column is mirrored and every chip in INIT's
configuration. -/
structure ShowsBuffer (s : State) : Prop where
  ready : Ready s
  bufOk : s.bufOk = true
  canonical : s.buf.wf = true
  mirror : ∀ c : Byte, c.toNat < 8 → mirrored c s
  normal : ∀ k (h : k < 4), inNormalMode s.regs[k] = true

theorem ShowsBuffer.lit {s : State} (h : ShowsBuffer s) {x y : Byte} (hv : ValidPixel x y) :
    lit x y s = some (pixelBit s.buf x y) :=
  lit_of_mirrored hv (h.normal _ _) (h.mirror x hv.1)

theorem bufAfter_wf (op : PublicOp) {m : Memory} (hw : m.wf = true) : (bufAfter op m).wf = true := by
  cases op with
  | write x y v =>
    cases hc : coordOutOfRange x y
    · simpa [bufAfter, hc] using writePixel_wf hw v (coordOutOfRange_false.mp hc)
    · simpa [bufAfter, hc] using hw
  | clear => rfl

/-- One command's part of the last-write rule (42_buffer_mapper.md R142). -/
theorem pixelBit_bufAfter (op : PublicOp) {m : Memory} (hw : m.wf = true) {x y : Byte} (hv : ValidPixel x y) :
    pixelBit (bufAfter op m) x y = pixelAfter x y (pixelBit m x y) [op] := by
  cases op with
  | write x' y' v =>
    cases hc : coordOutOfRange x' y'
    · have hbit := pixelBit_writePixel hw v (coordOutOfRange_false.mp hc) hv
      simpa [bufAfter, hc, pixelAfter, eq_comm (a := x), eq_comm (a := y)] using hbit
    · have hne : ¬ (x' = x ∧ y' = y) := by
        rintro ⟨rfl, rfl⟩
        simp [hv.inRange] at hc
      simp [bufAfter, hc, pixelAfter, hne]
  | clear => simp [bufAfter, pixelAfter, pixelBit]

/-- A public command leaves the buffer `bufAfter` says and no chip's mode changed. -/
theorem exec_public_effect {s t : State} (hs : Ready s) (hb : s.bufOk = true) (hw : s.buf.wf = true) {op : PublicOp}
    (h : exec op.instr s = .next t) :
    t.buf = bufAfter op s.buf ∧ ∀ k (hk : k < 4), inNormalMode t.regs[k] = inNormalMode s.regs[k] := by
  cases op with
  | write x y v =>
    cases hc : coordOutOfRange x y
    · obtain rfl := next_unique (exec_write hs hb v hc _ rfl) h
      have hx := (coordOutOfRange_false.mp hc).1
      refine ⟨by simp [bufAfter, hc, writePixel], fun k hk => ?_⟩
      rw [finish_regs, transacted_column_reg _ _ _ k hk, inNormalMode_column hx]
      rfl
    · obtain rfl := next_unique (exec_pixel_ignored hs v (by simp [pixelIgnored, hc])).1 h
      exact ⟨by simp [bufAfter, hc], fun _ _ => rfl⟩
  | clear =>
    obtain rfl := next_unique (exec_clear hs hb hw) h
    exact ⟨rfl, fun k hk => by simp only [Vector.getElem_map, inNormalMode_darkRegs]⟩

/-- In phase Ready every public command completes, whatever its operands (R188, 30_encoding.md R96). -/
theorem exec_public_completes {s : State} (hs : Ready s) (op : PublicOp) : ∃ t, exec op.instr s = .next t := by
  have hcommand : op.instr ≠ .init ∧ op.instr.chip? = none ∧ ∀ r d, op.instr ≠ .setreg r d := by
    cases op <;> exact ⟨nofun, rfl, nofun⟩
  obtain ⟨hinit, hchip, hset⟩ := hcommand
  obtain h | ⟨k, hk, -⟩ | ⟨r, d, hi, -⟩ := exec_ready hs op.instr hinit
  · exact h
  · simp [hchip] at hk
  · exact absurd hi (hset r d)

/-- A public command keeps the invariant. -/
theorem ShowsBuffer.exec_public {s t : State} (h : ShowsBuffer s) {op : PublicOp} (ht : exec op.instr s = .next t) :
    ShowsBuffer t := by
  obtain ⟨hbuf, hmode⟩ := exec_public_effect h.ready h.bufOk h.canonical ht
  refine ⟨exec_keeps_ready h.ready ht, ?_, hbuf ▸ bufAfter_wf op h.canonical, fun c hc => ?_, fun k hk => ?_⟩
  · obtain ⟨hflag, -⟩ | ⟨-, hpre, -⟩ := exec_flag ht
    · exact hflag.trans h.bufOk
    · simp [h.ready.2] at hpre
  · exact publicCommandsKeepTheMirror s t op c h.ready h.bufOk h.canonical hc (h.mirror c hc) ht
  · exact (hmode k hk).trans (h.normal k hk)

theorem pixelAfter_cons (x y : Byte) (b : Bool) (op : PublicOp) (ops : List PublicOp) :
    pixelAfter x y b (op :: ops) = pixelAfter x y (pixelAfter x y b [op]) ops := by
  cases op <;> rfl

/-- A sequence of public commands completes, keeps the invariant, and leaves each pixel as the last command that
sets it does. -/
theorem ShowsBuffer.runAll_public {s : State} (h : ShowsBuffer s) (ops : List PublicOp) :
    ∃ t, runAll (ops.map PublicOp.instr) s = .next t ∧ ShowsBuffer t ∧
      ∀ x y, ValidPixel x y → pixelBit t.buf x y = pixelAfter x y (pixelBit s.buf x y) ops := by
  induction ops generalizing s with
  | nil => exact ⟨s, rfl, h, fun _ _ _ => rfl⟩
  | cons op ops ih =>
    obtain ⟨u, hu⟩ := exec_public_completes h.ready op
    obtain ⟨t, ht, hshows, hpixels⟩ := ih (h.exec_public hu)
    obtain ⟨hbuf, -⟩ := exec_public_effect h.ready h.bufOk h.canonical hu
    refine ⟨t, by rw [List.map_cons, runAll, hu, andThen_next, ht], hshows, fun x y hv => ?_⟩
    rw [hpixels x y hv, hbuf, pixelBit_bufAfter op h.canonical hv, pixelAfter_cons _ _ _ op ops]

/-- INIT with a buffer establishes the invariant over an empty buffer (43_init_sequence.md R165). -/
theorem exec_init_showsBuffer {s : State} (hs : Fresh s) (ha : s.config.allocOk = true) :
    ∃ t, exec .init s = .next t ∧ t.buf = [] ∧ ShowsBuffer t := by
  obtain ⟨t, ht, -, -, -, hmirror⟩ := initEstablishesTheReadyState s hs ha
  obtain rfl := next_unique (exec_init_allocated hs ha) ht
  obtain ⟨hidle, -⟩ := hs
  refine ⟨_, ht, rfl, ⟨hidle, rfl⟩, rfl, rfl, hmirror, fun k hk => ?_⟩
  simp only [Vector.getElem_map, inNormalMode_configuredRegs]

/-- Settles O53: INIT establishes `ShowsBuffer` over an empty buffer and every public command keeps it. -/
theorem displayShowsTheLastWrite : Obligations.DisplayShowsTheLastWrite := by
  intro s ops hs ha
  obtain ⟨u, hu, hempty, hshows⟩ := exec_init_showsBuffer hs ha
  obtain ⟨t, ht, hshows', hpixels⟩ := hshows.runAll_public ops
  have hdark : ∀ x y, pixelBit u.buf x y = false := fun x y => by simp [hempty, pixelBit]
  refine ⟨t, by rw [runAll, hu, andThen_next, ht], fun x y hv => ⟨hshows'.lit hv, ?_⟩⟩
  rw [hpixels x y hv, hdark]

end Sys2Proof.Machine

/-! SUPPORT. The frames and the cascade (44_chain_receiver.md R170 to R191): a chip's frame as an instruction, the storing
frames, then the shift, the latch and the events that do neither. -/

namespace Sys2Proof.Machine

open Sys2Proof.Config (Pin)

/-! ### A frame as the instruction it decodes to (R173) -/

/-- A chip executes the frame that encodes an instruction as that instruction. -/
theorem execFrame_of_encode {i : Instr} {k : Nat} {f : Frame} (h : encode i = .frame k f) (s : State) :
    execFrame k (Frame.addr f) (Frame.data f) s = exec i s := by
  cases i with
  | noop j d | digit1 j d | digit2 j d | digit3 j d | digit4 j d | digit5 j d | digit6 j d | digit7 j d | digit8 j d
  | decode j d | intensity j d | scanlimit j d | shutdown j d | disptest j d =>
    cases h
    rw [frame_addr, frame_data]
    rfl
  | _ => cases h

/-- A frame that decodes to nothing has its address outside the map (R90). -/
theorem inMap_of_decode_error {expose : Bool} {k : Nat} {f : Frame} {e : DecodeError}
    (h : decode expose (.frame k f) = .error e) : inMap (Frame.addr f) = false := by
  by_contra hm
  obtain ⟨i, hi, hint⟩ := exists_encode_of_inMap k (by simpa using hm)
  have hdecode : decode expose (.frame k f) = .ok i := decode_ok_iff.mpr ⟨hi, by simp [hint]⟩
  cases hdecode.symm.trans h

/-- Settles O17: what decodes is an encoding (`execFrame_of_encode`), what does not is reserved. -/
theorem chipExecutesTheDecodedFrame : Obligations.ChipExecutesTheDecodedFrame := by
  intro expose k f s
  cases hd : decode expose (.frame k f) with
  | ok i => exact execFrame_of_encode (decode_ok_iff.mp hd).1 s
  | error e => exact execFrame_reserved k _ _ s (inMap_of_decode_error hd)

/-! ### Reserved addresses (R188) -/

theorem inMap_reserved {a : Byte} (h : a.toNat = 0x0D ∨ a.toNat = 0x0E ∨ 0x10 ≤ a.toNat) : inMap a = false := by
  have key : ∀ a : Byte, a.toNat = 0x0D ∨ a.toNat = 0x0E ∨ 0x10 ≤ a.toNat → inMap a = false := by decide
  exact key a h

/-- Settles O16: the reserved addresses are outside the map, and neither INIT nor a public command sends one. -/
theorem reservedFrameIsRefused : Obligations.ReservedFrameIsRefused := by
  refine ⟨fun k addr d s h => ?_, fun s op hs => exec_public_completes hs op, fun s hs => ?_⟩
  · have hm := inMap_reserved h
    exact ⟨execFrame_reserved k addr d s hm, fun hs => ⟨0, exec_setreg_reserved hs d hm⟩⟩
  · obtain ⟨t, ht, -⟩ := exec_init_completes hs
    exact ⟨t, ht⟩

/-! ### NOOP (R174) -/

theorem execNoop_eq {k : Nat} (hk : k < 4) (d : Byte) (s : State) : execNoop k d s = .next s := if_pos hk

/-- Settles O13: as SETREG's frame too NOOP leaves every register file (`applyFrame_noop`). -/
theorem noopFrameChangesNoRegister : Obligations.NoopFrameChangesNoRegister := by
  refine ⟨fun k d s hk => execNoop_eq hk d s, fun d s hs => ⟨_, exec_setreg hs d rfl, Vector.ext fun k hk => ?_⟩⟩
  exact (transacted_broadcast_reg (0x00#8, d) (accept s) k hk).trans (applyFrame_noop d _)

/-! ### The storing frames (R175 to R187) -/

/-- The state after chip `k` stored a byte. -/
def stored {k : Nat} (h : k < 4) (a : RegAddr) (d : Byte) (s : State) : State :=
  { s with regs := s.regs.set k (s.regs[k].write a d) }

/-- A frame instruction that stores its byte in a register: its word, and its meaning. -/
structure StoringFrame (mk : Nat → Byte → Instr) (a : RegAddr) : Prop where
  word : ∀ k d, encode (mk k d) = .frame k (frameWord a.code d)
  meaning : ∀ k d s, exec (mk k d) s = storeReg k a d s

theorem StoringFrame.decodes {mk : Nat → Byte → Instr} {a : RegAddr} (hf : StoringFrame mk a) (k : Nat) (d : Byte) :
    decode true (.frame k (frameWord a.code d)) = .ok (mk k d) :=
  decode_ok_iff.mpr ⟨hf.word k d, fun _ => rfl⟩

theorem StoringFrame.stores {mk : Nat → Byte → Instr} {a : RegAddr} (hf : StoringFrame mk a) {k : Nat} (h : k < 4)
    (d : Byte) (s : State) : exec (mk k d) s = .next (stored h a d s) :=
  (hf.meaning k d s).trans (storeReg_eq h a d s)

section
variable {k : Nat} (h : k < 4) (a : RegAddr) (d : Byte) (s : State)

theorem stored_reg_self : (stored h a d s).regs[k] = s.regs[k].write a d := Vector.getElem_set_self h

theorem stored_reg_other {j : Nat} (hj : j < 4) (hne : j ≠ k) : (stored h a d s).regs[j] = s.regs[j] :=
  Vector.getElem_set_ne h hj hne.symm

/-- Reading by address after a store: the stored register reads the byte, every other register as before. -/
theorem regAt_stored (j : Nat) (c : Byte) :
    regAt (stored h a d s) j c = if j = k ∧ c = a.code then some d else regAt s j c := by
  by_cases hjk : j = k
  · subst hjk
    have hreg : (stored h a d s).regs[j] = applyFrame a.code d s.regs[j] := by rw [stored_reg_self, applyFrame_code]
    simp [regAt_applied h hreg, RegAddr.ofCode_code]
  · simp [hjk, stored, regAt_set_other]

theorem regAt_stored_self : regAt (stored h a d s) k a.code = some d := by simp [regAt_stored]

theorem regAt_stored_other (j : Nat) (c : Byte) (hne : ¬ (j = k ∧ c = a.code)) :
    regAt (stored h a d s) j c = regAt s j c := by rw [regAt_stored, if_neg hne]

/-- A store outside the mode registers leaves every chip's mode. -/
theorem inNormalMode_stored (ha : a.isMode = false) {j : Nat} (hj : j < 4) :
    inNormalMode (stored h a d s).regs[j] = inNormalMode s.regs[j] := by
  by_cases hjk : j = k
  · subst hjk
    rw [stored_reg_self, inNormalMode_write_other _ ha]
  · rw [stored_reg_other h a d s hj hjk]

end

/-- What each DIGIT frame stores, for which column. -/
theorem digitFrames : ∀ p ∈ [(Instr.digit1, RegAddr.digit1, 7#8), (Instr.digit2, RegAddr.digit2, 6#8),
      (Instr.digit3, RegAddr.digit3, 5#8), (Instr.digit4, RegAddr.digit4, 4#8), (Instr.digit5, RegAddr.digit5, 3#8),
      (Instr.digit6, RegAddr.digit6, 2#8), (Instr.digit7, RegAddr.digit7, 1#8), (Instr.digit8, RegAddr.digit8, 0#8)],
    StoringFrame p.1 p.2.1 ∧ digitAddr p.2.2 = p.2.1.code ∧ p.2.2.toNat < 8 := by
  simp only [List.forall_mem_cons, List.not_mem_nil, false_imp_iff, implies_true, and_true]
  refine ⟨?_, ?_, ?_, ?_, ?_, ?_, ?_, ?_⟩ <;> exact ⟨⟨fun _ _ => rfl, fun _ _ _ => rfl⟩, rfl, by decide⟩

/-- Settles O14: a store of a digit register leaves the chip's mode, so the display reads the byte. -/
theorem digitFramesStoreColumns : Obligations.DigitFramesStoreColumns := by
  intro p hp k hk d s
  obtain ⟨hframe, haddr, hcol⟩ := digitFrames p hp
  refine ⟨haddr, hframe.decodes k d, _, hframe.stores hk d s, rfl, regAt_stored_self hk _ d s,
    regAt_stored_other hk _ d s, ?_⟩
  rintro hn y hy rfl
  refine lit_of_normal ⟨hcol, hy⟩ ?_ ?_
  · rw [inNormalMode_stored hk _ d s (isMode_of_digitAddr hcol haddr) hk, hn]
  · rw [haddr, regAt_stored_self hk _ d s]

theorem inNormalMode_iff {r : ChipRegs} : inNormalMode r = true ↔ r.decode = Config.decodeRaw ∧
    r.scanLimit = Config.scanAll ∧ r.shutdown = Config.shutdownNormal ∧ r.dispTest = Config.testOff := by
  simp [inNormalMode, and_assoc]

/-- What each mode frame stores, and the byte INIT's configuration has there. -/
theorem modeFrames : ∀ p ∈ [(Instr.decode, RegAddr.decode, Config.decodeRaw),
      (Instr.scanlimit, RegAddr.scanLimit, Config.scanAll), (Instr.shutdown, RegAddr.shutdown, Config.shutdownNormal),
      (Instr.disptest, RegAddr.dispTest, Config.testOff)],
    StoringFrame p.1 p.2.1 ∧ ∀ r, inNormalMode r = true → r.read p.2.1 = p.2.2 := by
  simp only [List.forall_mem_cons, List.not_mem_nil, false_imp_iff, implies_true, and_true]
  refine ⟨⟨⟨fun _ _ => rfl, fun _ _ _ => rfl⟩, fun r hr => ?_⟩, ⟨⟨fun _ _ => rfl, fun _ _ _ => rfl⟩, fun r hr => ?_⟩,
    ⟨⟨fun _ _ => rfl, fun _ _ _ => rfl⟩, fun r hr => ?_⟩, ⟨⟨fun _ _ => rfl, fun _ _ _ => rfl⟩, fun r hr => ?_⟩⟩
  all_goals obtain ⟨hdecode, hscan, hshutdown, htest⟩ := inNormalMode_iff.mp hr
  · exact hdecode
  · exact hscan
  · exact hshutdown
  · exact htest

theorem intensityFrame : StoringFrame .intensity .intensity := ⟨fun _ _ => rfl, fun _ _ _ => rfl⟩

/-- The display function reads neither the intensity of a chip nor the buffer (R184). -/
theorem lit_stored_intensity {k : Nat} (h : k < 4) (d : Byte) (s : State) (x y : Byte) :
    lit x y (stored h .intensity d s) = lit x y s := by
  rw [lit_eq, lit_eq, inNormalMode_stored h .intensity d s rfl]
  cases hc : coordOutOfRange x y
  · have hrange := digitAddr_range (coordOutOfRange_false.mp hc).1
    have haddr : digitAddr x ≠ RegAddr.intensity.code := fun he => absurd (he ▸ hrange) (by decide)
    rw [regAt_stored_other h .intensity d s _ _ (fun hd => haddr hd.2)]
  · rfl

/-- Settles O15: the mode registers of a chip that stored another byte are not INIT's, and `lit` does not read the
intensity. -/
theorem controlFramesStoreTheByte : Obligations.ControlFramesStoreTheByte := by
  refine ⟨fun p hp k hk d s => ?_, fun k hk d s => ?_⟩
  · obtain ⟨hframe, hmode⟩ := modeFrames p hp
    refine ⟨hframe.decodes k d, _, hframe.stores hk d s, rfl, regAt_stored_self hk _ d s,
      regAt_stored_other hk _ d s, ?_⟩
    rintro hd x y rfl
    refine lit_of_not_normal (Bool.eq_false_iff.mpr fun hn => hd ?_)
    have hread := hmode _ hn
    rwa [stored_reg_self, ChipRegs.read_write, if_pos rfl] at hread
  · exact ⟨intensityFrame.decodes k d, _, intensityFrame.stores hk d s, rfl, regAt_stored_self hk _ d s,
      regAt_stored_other hk _ d s, lit_stored_intensity hk d s⟩

/-! ### The shift (R171) -/

theorem shiftIn_zero (c : ChainWord) (b : Bool) : (shiftIn c b).getLsbD 0 = b := by simp [shiftIn]

theorem shiftIn_succ (c : ChainWord) (b : Bool) {i : Nat} (hi : i < 63) :
    (shiftIn c b).getLsbD (i + 1) = c.getLsbD i := by
  have hlt : i + 1 < 64 := by omega
  simp [shiftIn, hlt, -BitVec.getLsbD_eq_getElem]

theorem stage_getLsbD (c : ChainWord) (k : Nat) {j : Nat} (hj : j < 16) :
    (stage c k).getLsbD j = c.getLsbD (16 * k + j) := by
  simp [stage, hj]

/-- A stage after a shift: its bits move up, and the top bit of the stage before it, or the new bit, enters. -/
theorem stage_shiftIn (c : ChainWord) (b : Bool) {k : Nat} (hk : k < 4) : stage (shiftIn c b) k =
    (stage c k <<< 1) ||| (BitVec.ofBool (if k = 0 then b else (stage c (k - 1)).getLsbD 15)).setWidth 16 := by
  refine BitVec.eq_of_getLsbD_eq fun j hj => ?_
  rw [stage_getLsbD _ _ hj]
  cases j with
  | zero =>
    cases k with
    | zero => simp [shiftIn_zero, -BitVec.getLsbD_eq_getElem]
    | succ k =>
      have hlow : 16 * k + 15 < 63 := by omega
      have hbit := shiftIn_succ c b hlow
      simpa [stage_getLsbD, Nat.mul_add, -BitVec.getLsbD_eq_getElem] using hbit
  | succ j =>
    have hlow : 16 * k + j < 63 := by omega
    have hj' : j < 16 := by omega
    have hbit := shiftIn_succ c b hlow
    simpa [stage_getLsbD, hj, hj', Nat.add_assoc, -BitVec.getLsbD_eq_getElem] using hbit

/-- A rising clock edge shifts the data line's level in, whatever the load line (R171; log 14). -/
theorem drive_raiseClk_chain {s : State} {b : Bool} (hclk : s.lines.clk = .low) (hdata : s.lines.data = levelOf b) :
    (drive .clk true s).chain = shiftIn s.chain b := by
  simp [drive, isRising, pinGet, hclk, hdata]

/-- Settles O18, bit by bit and stage by stage. -/
theorem risingClockEdgeShiftsTheChain : Obligations.RisingClockEdgeShiftsTheChain := by
  intro s b hclk hdata
  refine ⟨_, emit_eq_drive .clk true s (.inl nofun), rfl, ?_⟩
  rw [drive_raiseClk_chain hclk hdata]
  exact ⟨shiftIn_zero _ _, fun i hi => shiftIn_succ _ _ hi, fun k hk => stage_shiftIn _ _ hk⟩

/-! ### The latch (R172) -/

/-- The chips before the first reserved stage change registers only; that stage ends the latch (R188). -/
theorem latchChips_reserved {ks : List Nat} (hks : ∀ k ∈ ks, k < 4) {s : State}
    (h : ∃ k ∈ ks, inMap (Frame.addr (stage s.chain k)) = false) :
    ∃ k addr, latchChips ks s = .refused (.reservedFrame k addr) := by
  induction ks generalizing s with
  | nil => simp at h
  | cons k ks ih =>
    have hk : k < 4 := hks k List.mem_cons_self
    cases hm : inMap (Frame.addr (stage s.chain k)) with
    | false => exact ⟨k, _, by rw [latchChips, execFrame_reserved k _ _ s hm, andThen_refused]⟩
    | true =>
      have hrest : ∃ j ∈ ks, inMap (Frame.addr (stage s.chain j)) = false := by simpa [hm] using h
      rw [latchChips, execFrame_eq hk _ _ s hm, andThen_next]
      exact ih (fun j hj => hks j (List.mem_cons_of_mem k hj)) hrest

/-- Settles O19: the latch of stages all in the map (`latch_eq`), or of one that is not (`latchChips_reserved`). -/
theorem risingLoadEdgeLatchesEveryChip : Obligations.RisingLoadEdgeLatchesEveryChip := by
  intro s hload
  rw [emit_raiseLoad s hload, drive_load]
  refine ⟨fun hm => ⟨_, latch_eq _ hm, rfl, rfl, fun k hk => by simp⟩, fun ⟨k, hk, hm⟩ => ?_⟩
  have hmem : k ∈ [0, 1, 2, 3] := List.mem_range.mpr hk
  exact latchChips_reserved (by decide) ⟨k, hmem, hm⟩

/-! ### A short transaction (R191) -/

/-- One more frame moves every frame one stage on and loses the last. -/
theorem pushByte_chainOf (f0 f1 f2 f3 : Frame) (a d : Byte) :
    pushByte (pushByte (chainOf f0 f1 f2 f3) a) d = chainOf f1 f2 f3 (frameWord a d) := by
  apply BitVec.eq_of_toNat_eq
  have h1 := f1.isLt
  have h2 := f2.isLt
  have h3 := f3.isLt
  have ha := a.isLt
  have hd := d.isLt
  simp only [pushByte_toNat, chainOf_toNat, frameWord_toNat]
  omega

/-- The stages of a chain that holds a new frame in chain chip 0 and one old frame everywhere else. -/
theorem stage_chainOf_old (f g : Frame) {k : Nat} (h1 : 1 ≤ k) (hk : k < 4) : stage (chainOf f f f g) k = f := by
  obtain rfl | rfl | rfl : k = 1 ∨ k = 2 ∨ k = 3 := by omega
  · exact stage_chainOf_1 ..
  · exact stage_chainOf_2 ..
  · exact stage_chainOf_3 ..

/-- Settles O25: the stages after the extra frame, and the latch of those (O19). -/
theorem shortTransactionLeavesOldFrames : Obligations.ShortTransactionLeavesOldFrames := by
  intro reg data a d s t hreg ha ht u
  obtain rfl := next_unique (opSetReg_eq reg data s hreg) ht
  have hchain : u.chain = chainOf (frameWord reg data) (frameWord reg data) (frameWord reg data) (frameWord a d) := by
    simp only [u, opSendByte_eq, transacted_chain, pushByte_chainOf]
  have hregs : u.regs = (transacted (reg, data) (reg, data) (reg, data) (reg, data) s).regs := by
    simp only [u, opSendByte_eq]
  have hload : u.lines.load = .low := by simp only [u, opSendByte_eq, transacted_lines]
  have hnew : stage u.chain 0 = frameWord a d := by rw [hchain, stage_chainOf_0]
  have hold : ∀ k, 1 ≤ k → k < 4 → stage u.chain k = frameWord reg data := fun k h1 hk => by
    rw [hchain, stage_chainOf_old _ _ h1 hk]
  have hmap : ∀ k, k < 4 → inMap (Frame.addr (stage u.chain k)) = true := by
    intro k hk
    obtain rfl | h1 := Nat.eq_zero_or_pos k
    · rw [hnew, frame_addr, ha]
    · rw [hold k h1 hk, frame_addr, hreg]
  obtain ⟨v, hv, -, -, hlatched⟩ := (risingLoadEdgeLatchesEveryChip u hload).1 hmap
  refine ⟨hnew, hold, v, hv, ?_, fun k hk h1 => ?_⟩
  · rw [hlatched 0 (by decide), hnew, frame_addr, frame_data]
    simp only [hregs]
  · rw [hlatched k hk, hold k h1 hk, frame_addr, frame_data]
    simp only [hregs]

/-! ### The events that neither shift nor latch (R190) -/

/-- A `SetLine` that is no rising edge moves its line only. -/
theorem emit_not_rising {p : Pin} {hi : Bool} {s : State} (h : isRising p hi s = false) :
    ∃ t, emit (.setLine p hi) s = .next t ∧ t.chain = s.chain ∧ t.regs = s.regs :=
  ⟨_, emit_eq_drive p hi s (.inr h), by simp [drive, h], rfl⟩

theorem isRising_false_of_level {p : Pin} {b : Bool} {s : State} (h : pinGet s.lines p = levelOf b) :
    isRising p b s = false := by
  cases b <;> simp [isRising, h]

/-- Settles O20, a kind of event a clause. -/
theorem otherEventsLeaveTheCascade : Obligations.OtherEventsLeaveTheCascade := by
  rintro s e (rfl | rfl | ⟨b, rfl⟩ | ⟨p, rfl⟩ | ⟨p, b, rfl, h⟩)
  · exact emit_not_rising rfl
  · exact emit_not_rising rfl
  · exact ⟨_, emit_eq_drive .data b s (.inl nofun), rfl, rfl⟩
  · exact ⟨_, rfl, rfl, rfl⟩
  · exact emit_not_rising (isRising_false_of_level h)

end Sys2Proof.Machine

/-! SUPPORT. The exceptional conditions (60_exceptions.md R200 to R209): when a command is ignored, what goes on running
without a buffer, and that nothing faults. -/

namespace Sys2Proof.Machine

/-! ### When a command is ignored (R201 to R203) -/

theorem pixelIgnored_iff {x y : Byte} {s : State} :
    pixelIgnored x y s = true ↔ s.bufOk = false ∨ 8 ≤ x.toNat ∨ 32 ≤ y.toNat := by
  simp [pixelIgnored, noBuffer, coordOutOfRange, Config.numChips]

theorem syncIgnored_iff {col : Byte} {s : State} : syncIgnored col s = true ↔ s.bufOk = false ∨ 8 ≤ col.toNat := by
  simp [syncIgnored, noBuffer, colOutOfRange]

/-- Settles O34: a coordinate out of range is a reason to ignore both commands. -/
theorem outOfRangeCoordinateIsIgnored : Obligations.OutOfRangeCoordinateIsIgnored :=
  fun _ _ v _ hs hrange => exec_pixel_ignored hs v (pixelIgnored_iff.mpr (.inr hrange))

/-- Settles O36: a WRITE whose `x` is no column is ignored, so SYNCCOL inside it has a column to send. -/
theorem outOfRangeColumnIsIgnored : Obligations.OutOfRangeColumnIsIgnored := by
  refine ⟨fun col s hs hcol => exec_synccol_ignored hs (syncIgnored_iff.mpr (.inr hcol)), fun x y s hi => ?_, rfl⟩
  by_contra hx
  have hignored : pixelIgnored x y s = true := pixelIgnored_iff.mpr (.inr (.inl (Nat.le_of_not_lt hx)))
  simp [hi] at hignored

/-! ### Without a buffer (R202) -/

theorem trace_length_of_log {s t : State} {es : List Event} {n : Nat} (h : t.log = es.reverse ++ s.log)
    (hn : es.length = n) : t.trace.length = s.trace.length + n := by
  rw [trace_of_log h, List.length_append, hn]

/-- INIT without a buffer: three `CfgOut` and five transactions of 195 events (43_init_sequence.md R163). -/
theorem initEvents_unallocated_length {c : Config.Params} (ha : c.allocOk = false) : (initEvents c).length = 978 := by
  simp [initEvents_unallocated ha, configEvents_eq_pairs, transactionEvents_length]

/-- Settles O35: the missing buffer is a reason to ignore the four commands that touch it, and only INIT, which phase
Ready refuses, writes the flag (`exec_flag`). -/
theorem missingBufferIsIgnored : Obligations.MissingBufferIsIgnored := by
  refine ⟨fun s x y v reg hs hb => ?_, fun s hs ha => ?_, fun s t i hp hb h => ?_⟩
  · obtain ⟨hwrite, hbufpix⟩ := exec_pixel_ignored hs v (pixelIgnored_iff (x := x) (y := y).mpr (.inl hb))
    have hsynccol := exec_synccol_ignored hs (syncIgnored_iff (col := x).mpr (.inl hb))
    refine ⟨hbufpix, hsynccol, hwrite, exec_clear_ignored hs hb, ⟨_, exec_sendbyte_state hs v, ?_⟩,
      fun hm => ⟨_, exec_setreg hs v hm, ?_⟩⟩
    · exact trace_length_of_log rfl (byteEvents_length v)
    · exact trace_length_of_log rfl (transactionEvents_length ..)
  · exact ⟨_, exec_init_unallocated hs ha, rfl, rfl, trace_length_of_log rfl (initEvents_unallocated_length ha)⟩
  · obtain ⟨hflag, hphase, -⟩ | ⟨-, hpre, -, -⟩ := exec_flag h
    · exact ⟨hphase.trans hp, hflag.trans hb⟩
    · simp [hp] at hpre

/-! ### The operations of the block do not fault (R200) -/

/-- An operation that faults in no state, whatever it is begun in. -/
def Faultless (op : State → Result) : Prop := ∀ (s : State) (f : Fault), op s ≠ .fault f

theorem Faultless.andThen {op f : State → Result} (hop : Faultless op) (hf : Faultless f) :
    Faultless fun s => andThen (op s) f := fun s e => by
  show Machine.andThen (op s) f ≠ .fault e
  cases h : op s with
  | next u => exact hf u e
  | fault r => exact absurd h (hop s r)
  | refused r => nofun

theorem faultless_next (g : State → State) : Faultless fun s => .next (g s) := fun _ _ => nofun

/-- SETREG completes or is refused at its latch (44_chain_receiver.md R188). -/
theorem faultless_opSetReg (reg data : Byte) : Faultless (opSetReg reg data) := fun s _ => by
  cases hm : inMap reg
  · rw [opSetReg_reserved reg data s hm]
    nofun
  · rw [opSetReg_eq reg data s hm]
    nofun

/-- SYNCCOL reads the bytes of a column that is there, or none. -/
theorem faultless_opSyncCol (col : Byte) : Faultless (opSyncCol col) := fun s _ => by
  cases hi : syncIgnored col s
  · obtain ⟨hb, hc⟩ : s.bufOk = true ∧ col.toNat < 8 := by simpa [syncIgnored, noBuffer, colOutOfRange] using hi
    rw [opSyncCol_eq col s hb hc]
    nofun
  · rw [opSyncCol_ignored col s hi]
    nofun

/-- BUFPIX accesses the byte of a valid coordinate (20_memory.md R54), or none. -/
theorem faultless_opBufPix (x y v : Byte) : Faultless (opBufPix x y v) := fun s _ => by
  cases hi : pixelIgnored x y s
  · obtain ⟨hb, hc⟩ : s.bufOk = true ∧ coordOutOfRange x y = false := by simpa [pixelIgnored, noBuffer] using hi
    rw [opBufPix_eq x y v s hb hc]
    nofun
  · rw [opBufPix_ignored x y v s hi]
    nofun

theorem faultless_opWrite (x y v : Byte) : Faultless (opWrite x y v) := fun s f => by
  cases hi : pixelIgnored x y s
  · rw [opWrite_eq x y v s hi]
    exact (faultless_opBufPix x y v).andThen (faultless_opSyncCol x) s f
  · rw [opWrite_ignored x y v s hi]
    nofun

theorem faultless_opClear : Faultless opClear := fun s _ => by
  cases hb : s.bufOk
  · rw [opClear_ignored s hb]
    nofun
  · obtain ⟨m, u, hu, -, -⟩ := opClear_completes s hb
    rw [hu]
    nofun

theorem faultless_opInit : Faultless opInit := fun s _ => by
  cases ha : s.config.allocOk
  · rw [opInit_unallocated s ha]
    nofun
  · rw [opInit_allocated s ha]
    nofun

/-- The guard of a command answers the state as it is (busy, ignored) or a refusal (equal pins, wrong phase); past it the
operation runs. -/
theorem faultless_command {op : State → Result} (hop : Faultless op) (legal : Phase) (ign : State → Bool) :
    Faultless (command legal ign op) := fun s f => by
  unfold command
  split_ifs
  · nofun
  · nofun
  · nofun
  · nofun
  · exact hop.andThen (faultless_next finish) (accept s) f

theorem faultless_exec_command {i : Instr} (hi : i.isCommand = true) : Faultless (exec i) := by
  cases i with
  | init => exact faultless_command faultless_opInit _ _
  | write x y v => exact faultless_command (faultless_opWrite x y v) _ _
  | clear => exact faultless_command faultless_opClear _ _
  | bufpix x y v => exact faultless_command (faultless_opBufPix x y v) _ _
  | synccol c => exact faultless_command (faultless_opSyncCol c) _ _
  | setreg r d => exact faultless_command (faultless_opSetReg r d) _ _
  | sendbyte v => exact faultless_command (faultless_next (opSendByte v)) _ _
  | _ => cases hi

/-! ### The frames, and the word an offer runs (R209) -/

/-- A frame of a chip that is there completes (44_chain_receiver.md R174 to R187). -/
theorem exec_frame_completes {i : Instr} {k : Nat} (hi : i.chip? = some k) (hk : k < 4) (s : State) :
    ∃ t, exec i s = .next t := by
  cases i with
  | noop j d =>
    cases hi
    exact ⟨s, execNoop_eq hk d s⟩
  | digit1 j d | digit2 j d | digit3 j d | digit4 j d | digit5 j d | digit6 j d | digit7 j d | digit8 j d
  | decode j d | intensity j d | scanlimit j d | shutdown j d | disptest j d =>
    cases hi
    exact ⟨_, storeReg_eq hk _ d s⟩
  | _ => cases hi

theorem wellFormed_iff {i : Instr} : i.wellFormed = true ↔ ∀ k, i.chip? = some k → k < 4 := by
  cases hk : i.chip? <;> simp [Instr.wellFormed, hk, Config.numChips]

theorem faultless_exec {i : Instr} (hi : i.wellFormed = true) : Faultless (exec i) := fun s f => by
  cases hk : i.chip? with
  | none => exact faultless_exec_command (by simp [Instr.isCommand, hk]) s f
  | some k =>
    obtain ⟨t, ht⟩ := exec_frame_completes hk (wellFormed_iff.mp hi k hk) s
    rw [ht]
    nofun

/-- The chip in whose stage a word stands; none for a word on the command port. -/
def wordChip? : CodeWord → Option Nat
  | .command _ => none
  | .frame k _ => some k

theorem wordChip?_encode (i : Instr) : wordChip? (encode i) = i.chip? := by cases i <;> rfl

/-- A word of the command port, or in the stage of a chip that is there, is run or refused. -/
theorem faultless_runWord {w : CodeWord} (hw : ∀ k, wordChip? w = some k → k < 4) : Faultless (runWord w) := fun s f => by
  cases hd : decode s.config.exposeInternal w with
  | ok i =>
    obtain ⟨rfl, -⟩ := decode_ok_iff.mp hd
    rw [wordChip?_encode] at hw
    rw [runWord_ok hd]
    exact faultless_exec (wellFormed_iff.mpr hw) s f
  | error e =>
    cases w with
    | command cw =>
      rw [runWord_reservedCommand hd]
      nofun
    | frame k fr =>
      rw [runWord_reservedFrame hd]
      nofun

theorem step_of_reset {s : State} {rest : List Input} (h : s.host = .reset :: rest) :
    step s = .next (resetBlock { s with host := rest }) := by
  simp only [step, serve, h]

/-- Settles O42: a well-formed instruction does not fault, and an offer is nothing, a reset or a word run. -/
theorem noInstructionFaults : Obligations.NoInstructionFaults := by
  refine ⟨fun i s f hi => faultless_exec hi s f, fun s f hchip => ?_⟩
  match hh : s.host with
  | [] =>
    rw [step_of_nothing_offered hh]
    nofun
  | .command cw :: rest =>
    rw [step_of_command hh]
    exact faultless_runWord (fun _ hj => by cases hj) _ f
  | .chipLatch k :: rest =>
    rw [step_of_chipLatch hh]
    have hk : k < 4 := hchip k rest hh
    exact faultless_runWord (fun _ hj => by cases hj; exact hk) _ f
  | .reset :: rest =>
    rw [step_of_reset hh]
    nofun

end Sys2Proof.Machine

/-! SUPPORT. Reset and hazards (70_reset_and_hazards.md R230 to R241): the block after a reset, an offer while busy, stray
bytes, and how many events and edges each operation makes. -/

namespace Sys2Proof.Machine

open Sys2Proof.Config (Pin PerPin)

/-! ### Reset, and an offer while busy (R230, R238) -/

/-- Settles O1: the step is `resetBlock`, and with nothing offered the next one is idle. -/
theorem resetReturnsBlockToPreInit : Obligations.ResetReturnsBlockToPreInit := by
  intro s rest hh
  exact ⟨_, step_of_reset hh, rfl, rfl, rfl, rfl, rfl, rfl, rfl, rfl, rfl, rfl, rfl, rfl,
    fun hrest => step_of_nothing_offered hrest⟩

/-- Settles O2: each field is the one `State.powerOn` writes, and `State.reset` is a power-on state. -/
theorem powerOnStateIsPreInit : Obligations.PowerOnStateIsPreInit :=
  ⟨fun _ _ _ _ => ⟨rfl, rfl, rfl, rfl, rfl, rfl, rfl, rfl⟩, _, _, _, _, rfl⟩

theorem command_busy (legal : Phase) (ign : State → Bool) (op : State → Result) {s : State} (hbusy : s.busy = true) :
    command legal ign op s = .next s := by
  simp [command, hbusy]

/-- Settles O6: `busy` is the first thing the guard of a command looks at. -/
theorem offerWhileBusyHasNoEffect : Obligations.OfferWhileBusyHasNoEffect := by
  intro s i hbusy hi
  obtain ⟨legal, ign, op, hexec, -⟩ := exec_eq_command hi
  rw [hexec, command_busy legal ign op hbusy]

/-! ### Stray bytes (R236) -/

/-- Bare bytes leave everything of the state that the next WRITE reads: not the lines, and not the chain, which its
transaction fills anew (41_register_protocol.md R122). -/
theorem runAll_sendbytes {vs : List Byte} {s t : State} (hs : Ready s)
    (h : runAll (vs.map Instr.sendbyte) s = .next t) :
    Ready t ∧ t.regs = s.regs ∧ t.bufOk = s.bufOk ∧ t.buf = s.buf := by
  induction vs generalizing s with
  | nil =>
    cases h
    exact ⟨hs, rfl, rfl, rfl⟩
  | cons v vs ih =>
    obtain ⟨u, hu, hut⟩ := andThen_eq_next h
    have hready := exec_keeps_ready hs hu
    obtain rfl := next_unique (exec_sendbyte_state hs v) hu
    have hrest := ih hready hut
    exact hrest

/-- Settles O26: the two WRITEs make the same transaction over the same buffer and the same registers. -/
theorem strayBytesAreFlushed : Obligations.StrayBytesAreFlushed := by
  intro vs x y value s t u hs _ hb _ hv hrun hu
  obtain ⟨hready, hregs, hbufOk, hbuf⟩ := runAll_sendbytes hs hrun
  obtain rfl := next_unique (exec_write hs hb value hv.inRange _ rfl) hu
  refine ⟨hregs, _, exec_write hready (hbufOk.trans hb) value hv.inRange _ (by rw [hbuf]), ?_, rfl, rfl⟩
  simp only [finish_regs, transacted_regs, accept_regs, hregs]

/-! ### Edges of a line in a list of events (R171, R172) -/

/-- The edges of a line depend on the level of that line alone. -/
theorem risingEdges_congr {q : Pin} {l l' : PerPin Level} (h : pinGet l q = pinGet l' q) (es : List Event) :
    risingEdges q l es = risingEdges q l' es := by
  induction es generalizing l l' with
  | nil => rfl
  | cons e es ih =>
    cases e with
    | cfgOut p => exact ih h
    | setLine p hi =>
      simp only [risingEdges]
      by_cases hp : p = q
      · subst hp
        rw [h, ih (l' := pinSet l' p (levelOf hi)) (by simp)]
      · have hq : q ≠ p := fun e => hp e.symm
        rw [ih (l' := pinSet l' p (levelOf hi)) (by simp [hq, h])]
        simp [hp]

/-- The second part's edges are counted from the lines the first part leaves. -/
theorem risingEdges_append (q : Pin) (l : PerPin Level) (es fs : List Event) :
    risingEdges q l (es ++ fs) = risingEdges q l es + risingEdges q (es.foldl lineStep l) fs := by
  induction es generalizing l with
  | nil => simp [risingEdges]
  | cons e es ih =>
    cases e with
    | cfgOut p => exact ih l
    | setLine p hi => simp only [List.cons_append, risingEdges, ih, Nat.add_assoc, List.foldl_cons, lineStep]

/-- Events that do not set a line neither make an edge of it nor hide one. -/
theorem risingEdges_append_of_unset {q : Pin} {es : List Event} (h : ∀ hi, Event.setLine q hi ∉ es) (l : PerPin Level)
    (fs : List Event) : risingEdges q l (es ++ fs) = risingEdges q l fs := by
  induction es generalizing l with
  | nil => rfl
  | cons e es ih =>
    have hes : ∀ hi, Event.setLine q hi ∉ es := fun hi hmem => h hi (List.mem_cons_of_mem e hmem)
    cases e with
    | cfgOut p => exact ih hes l
    | setLine p hi =>
      have hp : q ≠ p := by
        rintro rfl
        exact h hi List.mem_cons_self
      rw [List.cons_append, risingEdges, ih hes, risingEdges_congr (l' := l) (pinGet_set_other l p q _ hp)]
      simp [hp.symm]

/-! ### The counts of R240's table -/

/-- The test R240's statement counts `CfgOut` events by, one for each pin. -/
def isCfgOut (e : Event) : Bool := e == .cfgOut .data || e == .cfgOut .clk || e == .cfgOut .load

@[simp] theorem isCfgOut_setLine (p : Pin) (hi : Bool) : isCfgOut (.setLine p hi) = false := rfl

/-- How many events a list has, how many of them `CfgOut`, and how many rising edges of the clock and the load line they
make from whatever lines: so the counts of a list are the sums of the counts of its parts. -/
structure EventCounts (es : List Event) (nEvents nCfgOut nClk nLoad : Nat) : Prop where
  events : es.length = nEvents
  cfgOuts : (es.filter isCfgOut).length = nCfgOut
  clkEdges : ∀ l, risingEdges .clk l es = nClk
  loadEdges : ∀ l, risingEdges .load l es = nLoad

theorem EventCounts.nil : EventCounts [] 0 0 0 0 := ⟨rfl, rfl, fun _ => rfl, fun _ => rfl⟩

theorem EventCounts.append {es fs : List Event} {n c k d n' c' k' d' : Nat} (h : EventCounts es n c k d)
    (g : EventCounts fs n' c' k' d') : EventCounts (es ++ fs) (n + n') (c + c') (k + k') (d + d') where
  events := by rw [List.length_append, h.events, g.events]
  cfgOuts := by rw [List.filter_append, List.length_append, h.cfgOuts, g.cfgOuts]
  clkEdges l := by rw [risingEdges_append, h.clkEdges, g.clkEdges]
  loadEdges l := by rw [risingEdges_append, h.loadEdges, g.loadEdges]

/-- Parts with the same counts. -/
theorem EventCounts.flatMap {α : Type} {f : α → List Event} {n c k d : Nat} (h : ∀ a, EventCounts (f a) n c k d)
    (as : List α) : EventCounts (as.flatMap f) (as.length * n) (as.length * c) (as.length * k) (as.length * d) := by
  induction as with
  | nil => simpa using EventCounts.nil
  | cons a as ih => simpa [Nat.succ_mul, Nat.add_comm] using (h a).append ih

theorem byteEvents_load_unset (v : Byte) (hi : Bool) : Event.setLine .load hi ∉ byteEvents v := by
  intro h
  obtain ⟨b, hb | hb⟩ := byteEvents_on_clk_or_data h <;> cases hb

theorem framesEvents_load_unset (fs : List (Byte × Byte)) (hi : Bool) :
    Event.setLine .load hi ∉ fs.flatMap frameEvents := by
  simp [frameEvents, byteEvents_load_unset]

theorem byteEvents_counts (v : Byte) : EventCounts (byteEvents v) 24 0 8 0 where
  events := byteEvents_length v
  cfgOuts := by
    rw [List.length_eq_zero_iff, List.filter_eq_nil_iff]
    intro e he
    obtain ⟨b, rfl | rfl⟩ := byteEvents_on_clk_or_data he <;> simp
  clkEdges := byteEvents_risingEdges v
  loadEdges l := by simpa [risingEdges] using risingEdges_append_of_unset (byteEvents_load_unset v) l []

theorem frameEvents_counts (f : Byte × Byte) : EventCounts (frameEvents f) 48 0 16 0 :=
  (byteEvents_counts f.1).append (byteEvents_counts f.2)

/-- A transaction lowers the load line first, so its pulse is one rising edge from any lines (R121). -/
theorem transactionEvents_counts (f0 f1 f2 f3 : Byte × Byte) :
    EventCounts (transactionEvents [f0, f1, f2, f3]) 195 0 64 1 := by
  have hframes := EventCounts.flatMap frameEvents_counts [f0, f1, f2, f3]
  refine ⟨transactionEvents_length .., ?_, fun l => ?_, fun l => ?_⟩
  · simp only [transactionEvents, List.filter_cons, isCfgOut_setLine, Bool.false_eq_true, if_false, List.filter_append,
      List.length_append, hframes.cfgOuts]
    rfl
  · simp only [transactionEvents, risingEdges, risingEdges_append, hframes.clkEdges]
    rfl
  · simp only [transactionEvents, risingEdges, risingEdges_append_of_unset (framesEvents_load_unset _)]
    simp [pinGet, pinSet]

/-- `n` transactions, each of which sends one pair to every chip. -/
theorem broadcasts_counts {ps : List (Byte × Byte)} {n : Nat} (hn : ps.length = n) :
    EventCounts (ps.flatMap fun p => transactionEvents [p, p, p, p]) (n * 195) (n * 0) (n * 64) (n * 1) :=
  hn ▸ .flatMap (fun p => transactionEvents_counts p p p p) ps

theorem clearEvents_counts : EventCounts clearEvents 1560 0 512 8 := by
  rw [clearEvents_eq_pairs]
  exact broadcasts_counts (n := 8) rfl

theorem configEvents_counts (c : Config.Params) : EventCounts (configEvents c) 975 0 320 5 := by
  rw [configEvents_eq_pairs]
  exact broadcasts_counts (n := 5) rfl

theorem configureLines_counts : EventCounts [.cfgOut .data, .cfgOut .clk, .cfgOut .load] 3 3 0 0 :=
  ⟨rfl, rfl, fun _ => rfl, fun _ => rfl⟩

theorem initEvents_allocated_counts {c : Config.Params} (ha : c.allocOk = true) :
    EventCounts (initEvents c) 2538 3 832 13 := by
  rw [initEvents_allocated ha]
  exact configureLines_counts.append (clearEvents_counts.append (configEvents_counts c))

theorem initEvents_unallocated_counts {c : Config.Params} (ha : c.allocOk = false) :
    EventCounts (initEvents c) 978 3 320 5 := by
  rw [initEvents_unallocated ha]
  exact configureLines_counts.append (configEvents_counts c)

/-- The counts of a command are those of the events its next state has in its trace. -/
theorem EventCounts.of_exec {s t : State} {i : Instr} {es : List Event} {n c k d : Nat} (he : exec i s = .next t)
    (hlog : t.log = es.reverse ++ s.log) (hc : EventCounts es n c k d) :
    ∃ t es, exec i s = .next t ∧ t.trace = s.trace ++ es ∧ es.length = n ∧ (es.filter isCfgOut).length = c ∧
      risingEdges .clk s.lines es = k ∧ risingEdges .load s.lines es = d :=
  ⟨t, es, he, trace_of_log hlog, hc.events, hc.cfgOuts, hc.clkEdges _, hc.loadEdges _⟩

/-- Settles O40, a row of the table a case: the state each operation leaves names its events, and these are counted. -/
theorem eventCountsOfTheOperations : Obligations.EventCountsOfTheOperations := by
  rintro s i n c k d (⟨⟨v, rfl, hs⟩, ⟨⟩⟩ | ⟨⟨r, v, rfl, hm, hs⟩, ⟨⟩⟩ | ⟨⟨x, rfl, hx, hb, hs⟩, ⟨⟩⟩ |
    ⟨⟨x, y, v, rfl, hv, hb, hs⟩, ⟨⟩⟩ | ⟨⟨x, y, v, rfl, hv, hb, hs⟩, ⟨⟩⟩ | ⟨⟨rfl, hb, hw, hs⟩, ⟨⟩⟩ |
    ⟨⟨rfl, ha, hs⟩, ⟨⟩⟩ | ⟨⟨rfl, ha, hs⟩, ⟨⟩⟩)
  · exact EventCounts.of_exec (exec_sendbyte_state hs v) rfl (byteEvents_counts v)
  · exact EventCounts.of_exec (exec_setreg hs v hm) rfl (transactionEvents_counts ..)
  · exact EventCounts.of_exec (exec_synccol hs hb hx) rfl (transactionEvents_counts ..)
  · exact EventCounts.of_exec (exec_bufpix hs hb v hv.inRange) rfl .nil
  · exact EventCounts.of_exec (exec_write hs hb v hv.inRange _ rfl) rfl (transactionEvents_counts ..)
  · exact EventCounts.of_exec (exec_clear hs hb hw) rfl clearEvents_counts
  · exact EventCounts.of_exec (exec_init_allocated hs ha) rfl (initEvents_allocated_counts ha)
  · exact EventCounts.of_exec (exec_init_unallocated hs ha) rfl (initEvents_unallocated_counts ha)

end Sys2Proof.Machine
